-- ==== Sys2Proof/Word.lean ====
section
/-! DEFINITION. The data types of the PAW architecture: bytes, halfwords and register numbers. -/

namespace Sys2Proof

/-- A byte, 8 bits (00_scope.md R2). -/
abbrev Byte := BitVec 8

/-- A halfword, 16 bits: the contents of every register, an address, an instruction
(00_scope.md R2, 10_state.md R10, 20_memory.md R30, 30_encoding.md R50). -/
abbrev Halfword := BitVec 16

/-- The number of a low register, R0 to R7 (10_state.md R11). -/
abbrev LowReg := Fin 8

/-- The number of any register, R0 to R15; number 15 is the PC (10_state.md R10, R14). -/
abbrev Reg := Fin 16

/-- A low register keeps its number among the sixteen (10_state.md R11). -/
def LowReg.toReg (r : LowReg) : Reg := ⟨r.val, by omega⟩

/-- R15, the program counter (10_state.md R14). -/
abbrev regPC : Reg := 15

end Sys2Proof
end

