-- ==== Sys2Proof/Config.lean ====
section
/-! DEFINITION. What the manual leaves to an implementation or a platform: the launch parameters of
00_scope.md section 4, and the free values, which are constants without a body. -/

namespace Sys2Proof

/-- `MISALIGNED_POLICY`: what `LDR` and `STR` do at an address not divisible by 4 (20_memory.md R38). -/
inductive MisalignedPolicy where
  | fault
  | draw
  deriving DecidableEq, Repr

/-- `WRAP_POLICY`: what an address computation that leaves 0..65535 does (20_memory.md R31). -/
inductive WrapPolicy where
  | wrap
  | fault
  deriving DecidableEq, Repr

/-- `PC_FALLTHROUGH_POLICY`: what sequential execution past 0xFFFE does (10_state.md R17). -/
inductive FallThroughPolicy where
  | fault
  | wrap
  deriving DecidableEq, Repr

/-- `SMC_POLICY`: what a fetch of a byte that a store has written does (20_memory.md R42). -/
inductive SmcPolicy where
  | fault
  | coherent
  deriving DecidableEq, Repr

/-- A block of memory-mapped I/O addresses, both ends included (20_memory.md R36). -/
structure MmioRange where
  first : Nat
  last : Nat
  deriving DecidableEq, Repr

/-- The parameters of a launch that stay fixed for the whole run (00_scope.md section 4, log 4). -/
structure Params where
  haltIgnoresUnused : Bool
  misaligned : MisalignedPolicy
  wrap : WrapPolicy
  fallThrough : FallThroughPolicy
  smc : SmcPolicy
  mmioRegion : List MmioRange
  deriving DecidableEq, Repr

/-- The defaults the spec names (00_scope.md section 4). -/
def Params.specDefault : Params :=
  { haltIgnoresUnused := false, misaligned := .fault, wrap := .wrap, fallThrough := .fault,
    smc := .fault, mmioRegion := [] }

/-- The parameters of `State.reset`: the spec's alternative wherever its default would stop a machine
that the manual's pseudocode lets go on. DESIGN CHOICE, log 5: misaligned accesses draw a free value,
the PC wraps past 0xFFFE, and fetch is coherent; the other values are the spec's defaults. -/
def Params.atReset : Params :=
  { haltIgnoresUnused := false, misaligned := .draw, wrap := .wrap, fallThrough := .wrap,
    smc := .coherent, mmioRegion := [] }

/-- One access that reached the devices, with the value that crossed (20_memory.md R36, R41). -/
inductive DeviceEvent where
  | loadByte (address : Halfword) (value : Byte)
  | loadHalfword (address : Halfword) (value : Halfword)
  | storeByte (address : Halfword) (value : Byte)
  | storeHalfword (address : Halfword) (value : Halfword)
  deriving DecidableEq, Repr

/-- FREE VALUE (log 6): the data a misaligned `LDR` loads, "data = UNPREDICTABLE"
(41_load_store.md R100), by the number of the draw and the address. -/
opaque Config.misalignedLoad (draw : Nat) (address : Halfword) : Halfword

/-- FREE VALUE (log 6): the two bytes a misaligned `STR` leaves at `address` (bits 7 to 0) and
`address + 1` (bits 15 to 8), each UNPREDICTABLE (41_load_store.md R102). -/
opaque Config.misalignedStore (draw : Nat) (address data : Halfword) : Halfword

/-- FREE VALUE (log 8): the byte a device answers a byte load with (20_memory.md R36). -/
opaque Config.deviceByte (draw : Nat) (past : List DeviceEvent) (address : Halfword) : Byte

/-- FREE VALUE (log 8): the halfword a device answers a halfword load with (20_memory.md R36). -/
opaque Config.deviceHalfword (draw : Nat) (past : List DeviceEvent) (address : Halfword) : Halfword

end Sys2Proof
end

