-- ==== Sys2Proof/Syntax.lean ====
section
/-! DEFINITION. The instructions of PAW, one constructor per row of spec/opcode_table.json. -/

namespace Sys2Proof

/-- The instructions (30_encoding.md R62). `CMP`(3) has two rows in the opcode table and so two
constructors here: `cmp3High` is the row with H1 = 1, `cmp3Low` the row with H1 = 0 and H2 = 1
(log 18). Immediates are the raw fields of the encoding; R60 scales them (Machine/Operands.lean). -/
inductive Instr where
  /-- `HALT` (R120). -/
  | halt
  /-- `MOV Rd, #Immediate8` (R88). -/
  | mov1 (rd : LowReg) (imm8 : BitVec 8)
  /-- `CMP Rd, #Immediate8` (R84). -/
  | cmp1 (rd : LowReg) (imm8 : BitVec 8)
  /-- `AND Rd, Rs` (R82). -/
  | and (rd rs : LowReg)
  /-- `EOR Rd, Rs` (R87). -/
  | eor (rd rs : LowReg)
  /-- `ASR Rd, Rs` (R83). -/
  | asr (rd rs : LowReg)
  /-- `TST Rd, Rs` (R91). -/
  | tst (rd rs : LowReg)
  /-- `NEG Rd, Rs` (R90). -/
  | neg (rd rs : LowReg)
  /-- `CMP Rd, Rs` of two low registers (R85). -/
  | cmp2 (rd rs : LowReg)
  /-- `ADD Rd, Rs`, any registers (R80). -/
  | add1 (rd rs : Reg)
  /-- `CMP Rd, Rs` with Rd one of R8 to R15 (R86, H1 = 1). -/
  | cmp3High (rd rs : Reg)
  /-- `CMP Rd, Rs` with Rd low and Rs one of R8 to R15 (R86, H1 = 0 and H2 = 1). -/
  | cmp3Low (rd : LowReg) (rs : Reg)
  /-- `MOV Rd, Rs`, any registers (R89). -/
  | mov2 (rd rs : Reg)
  /-- `STR Rd, [Rb, #Imm5<<2]` (R102). -/
  | str (rd rb : LowReg) (imm5 : BitVec 5)
  /-- `LDR Rd, [Rb, #Imm5<<2]` (R100). -/
  | ldr (rd rb : LowReg) (imm5 : BitVec 5)
  /-- `STRB Rd, [Rb, #Imm5]` (R103). -/
  | strb (rd rb : LowReg) (imm5 : BitVec 5)
  /-- `LDRB Rd, [Rb, #Imm5]` (R101). -/
  | ldrb (rd rb : LowReg) (imm5 : BitVec 5)
  /-- `ADD Rd, PC, #Immediate8<<2` (R81). -/
  | add2 (rd : LowReg) (imm8 : BitVec 8)
  /-- `BEQ`, Cond = 0000 (R110, R111), and so on to `BLE`, Cond = 1101. -/
  | beq (offset8 : BitVec 8)
  | bne (offset8 : BitVec 8)
  | bcs (offset8 : BitVec 8)
  | bcc (offset8 : BitVec 8)
  | bmi (offset8 : BitVec 8)
  | bpl (offset8 : BitVec 8)
  | bvs (offset8 : BitVec 8)
  | bvc (offset8 : BitVec 8)
  | bhi (offset8 : BitVec 8)
  | bls (offset8 : BitVec 8)
  | bge (offset8 : BitVec 8)
  | blt (offset8 : BitVec 8)
  | bgt (offset8 : BitVec 8)
  | ble (offset8 : BitVec 8)
  deriving DecidableEq, Repr

end Sys2Proof
end

