-- ==== Sys2Proof/Machine/State.lean ====
section
/-! DEFINITION. The state of the machine, its faults and refusals, the launch of a run and reset. -/

namespace Sys2Proof.Machine

/-- The condition code flags, bits 3 to 0 of the status register (10_state.md R18 to R22). Bits 15
to 4 do not exist in the model (92_eei_decisions.md D19, log 17). -/
structure Flags where
  n : Bool
  z : Bool
  c : Bool
  v : Bool
  deriving DecidableEq, Repr

/-- Memory as a list of (address, byte) pairs in one canonical form: addresses strictly rising, every
address below 2^16, no byte equal to what an unlisted address reads as (Machine/Memory.lean). -/
abbrev Memory := List Host.Cell

/-- Everything the spec gives the machine (10_state.md section 1), the launch's parameters, and the
model's own counter of free values. -/
structure State where
  /-- R0 to R14 (10_state.md R10 to R13). -/
  regs : Vector Halfword 15
  /-- R15: the address of the instruction being executed (10_state.md R14). -/
  pc : Halfword
  /-- The status register's four flags (10_state.md R18). -/
  flags : Flags
  /-- Set by `HALT`, cleared by reset only (10_state.md R25). -/
  halted : Bool
  /-- The one flat memory (20_memory.md R30). -/
  mem : Memory
  /-- The byte addresses stored to since reset, strictly rising: the spec's bookkeeping for
  `SMC_POLICY` (20_memory.md R42). -/
  written : List Nat
  /-- The accesses that reached the devices, the oldest first (20_memory.md R36, R45; log 8). -/
  deviceEvents : List DeviceEvent
  /-- THE MODEL'S OWN: how many free values have been drawn (log 7). -/
  draws : Nat
  /-- The launch's parameters; no step changes them (log 4). -/
  params : Params
  deriving DecidableEq, Repr

/-- The model faults, the seven of 60_exceptions.md R134 and no other. The hardware detects none of
these conditions (R130): each marks a point where the manual gives no behaviour, or, under a policy
the launch selects, a behaviour programs must not rely on. All are SAFE: the model stops where the
hardware goes on. Only `pcFallThrough` changes state before it stops (R131). -/
inductive Fault where
  /-- Raised by the decoder's caller and by `CMP`(3) of two low registers (R63 to R65, R112). -/
  | unassignedEncoding
  /-- Raised by `LDR` and `STR` at an address not divisible by 4, under `MISALIGNED_POLICY = fault`
  (R38). -/
  | unpredictableAccess
  /-- Raised by a fetch at an odd PC (R27). -/
  | misalignedFetch
  /-- Raised in place of `pc <- pc + 2` by the instruction at 0xFFFE, under
  `PC_FALLTHROUGH_POLICY = fault`. That instruction is complete: `completed` is the state it leaves,
  the PC still 0xFFFE (R17, R131; log 11). -/
  | pcFallThrough (completed : State)
  /-- Raised by an effective address, a taken branch's target or an `ADD`(2) result outside 0..65535,
  under `WRAP_POLICY = fault` (R31). -/
  | addressWrap
  /-- Raised by a fetch that touches the memory-mapped I/O region (R43). -/
  | fetchFromMmio
  /-- Raised by a fetch of a byte a store has written, under `SMC_POLICY = fault` (R42). -/
  | fetchAfterStore
  deriving DecidableEq, Repr

/-- Where the model has no transition. All are SAFE. -/
inductive Refusal where
  /-- An arm of `exec` without a meaning; no arm answers it now. -/
  | notModelled (mnemonic : String)
  /-- Raised by `step` on a halted machine: "a halted machine has no transition"
  (93_implementation_defined.md I16, 10_state.md R25; log 10). -/
  | halted
  /-- Raised by a halfword access with one byte in the memory-mapped I/O region and one outside,
  which the spec does not define (20_memory.md R36, 93_implementation_defined.md I18; log 9). -/
  | mmioStraddle
  deriving DecidableEq, Repr

/-! ### Updates of one part of the state -/

/-- The same state with other general registers. -/
def State.setRegs (s : State) (r : Vector Halfword 15) : State := { s with regs := r }

/-- The same state with another PC. -/
def State.setPc (s : State) (a : Halfword) : State := { s with pc := a }

/-- The same state with other flags. -/
def State.setFlags (s : State) (f : Flags) : State := { s with flags := f }

/-- The same state with another value of the halted bit. -/
def State.setHalted (s : State) (h : Bool) : State := { s with halted := h }

/-- The same state with another memory. -/
def State.setMem (s : State) (m : Memory) : State := { s with mem := m }

/-- The same state with another set of written addresses. -/
def State.setWritten (s : State) (w : List Nat) : State := { s with written := w }

/-- The same state with another list of device accesses. -/
def State.setEvents (s : State) (e : List DeviceEvent) : State := { s with deviceEvents := e }

/-- The same state with another count of free values. -/
def State.setDraws (s : State) (n : Nat) : State := { s with draws := n }

/-- The same state with other parameters. -/
def State.setParams (s : State) (p : Params) : State := { s with params := p }

/-! ### Reset -/

/-- The arguments of a launch (70_reset_and_hazards.md R141, R142): `initial_regs`, `initial_flags`,
`initial_memory` with the program in it, and the parameters. -/
structure Launch where
  regs : Vector Halfword 15
  flags : Flags
  mem : Memory
  params : Params
  deriving DecidableEq, Repr

/-- The machine right after reset (70_reset_and_hazards.md R140, R141): the PC at 0, not halted,
nothing written, everything else an argument of the launch. -/
def State.launch (l : Launch) : State :=
  { regs := l.regs, pc := 0, flags := l.flags, halted := false, mem := l.mem, written := [],
    deviceEvents := [], draws := 0, params := l.params }

/-- The arguments of `State.reset`. DESIGN CHOICE, unsafe: registers and flags zero (logs 1, 2),
memory with nothing listed (log 3), the parameters of log 5. -/
def Launch.atReset : Launch :=
  { regs := Vector.replicate 15 0,
    flags := { n := false, z := false, c := false, v := false },
    mem := [], params := Params.atReset }

/-- The machine right after reset with this model's launch arguments. -/
def State.reset : State := State.launch Launch.atReset

end Sys2Proof.Machine
end

