-- ==== Sys2Proof/Machine/Flags.lean ====
section
/-! DEFINITION. Every flag computation of the spec, and the branch conditions. -/

namespace Sys2Proof.Machine

/-- The integer is outside -32768..32767: "signed overflow occurred" (10_state.md R22). -/
def signedOverflow (exact : Int) : Bool := decide (exact < -32768 ∨ 32767 < exact)

/-- What `AddWithFlags` and `SubWithFlags` return. -/
structure AluOut where
  result : Halfword
  carry : Bool
  overflow : Bool
  deriving DecidableEq, Repr

/-- `AddWithFlags(a, b)` (40_data_processing.md R75): the exact sums, narrowed at the end. -/
def addWithFlags (a b : Halfword) : AluOut :=
  { result := BitVec.ofNat 16 (a.toNat + b.toNat),
    carry := decide (65536 ≤ a.toNat + b.toNat),
    overflow := signedOverflow (a.toInt + b.toInt) }

/-- `SubWithFlags(a, b)` (40_data_processing.md R76): the exact differences, narrowed at the end;
the carry is "no borrow" (90_conflicts.md C2). -/
def subWithFlags (a b : Halfword) : AluOut :=
  { result := BitVec.ofInt 16 ((a.toNat : Int) - (b.toNat : Int)),
    carry := decide (b.toNat ≤ a.toNat),
    overflow := signedOverflow (a.toInt - b.toInt) }

/-- `SetNZ(v)` (40_data_processing.md R77): N is bit 15, Z says the value is zero; C and V keep their
values. -/
def Flags.setNZ (f : Flags) (v : Halfword) : Flags :=
  { f with n := v.getLsbD 15, z := decide (v = 0) }

/-- All four flags from an addition or a subtraction (40_data_processing.md R80, R84 to R86, R90). -/
def AluOut.flags (o : AluOut) : Flags :=
  { n := o.result.getLsbD 15, z := decide (o.result = 0), c := o.carry, v := o.overflow }

/-- The status register's implemented bits 3 to 0, N Z C V (10_state.md R18). No instruction reads
them as a whole. -/
def Flags.statusBits (f : Flags) : BitVec 4 :=
  BitVec.ofBool f.n ++ BitVec.ofBool f.z ++ BitVec.ofBool f.c ++ BitVec.ofBool f.v

/-- The fourteen conditions of 42_branch.md R111. -/
inductive Cond where
  | eq | ne | cs | cc | mi | pl | vs | vc | hi | ls | ge | lt | gt | le
  deriving DecidableEq, Repr

/-- `ConditionPassed(Cond)` (42_branch.md R111). The "or" of `ls` and `le` is the spec's restoration
(91_not_in_source.md N4, log 20). -/
def conditionPassed (c : Cond) (f : Flags) : Bool :=
  match c with
  | .eq => f.z
  | .ne => !f.z
  | .cs => f.c
  | .cc => !f.c
  | .mi => f.n
  | .pl => !f.n
  | .vs => f.v
  | .vc => !f.v
  | .hi => f.c && !f.z
  | .ls => !f.c || f.z
  | .ge => f.n == f.v
  | .lt => f.n != f.v
  | .gt => !f.z && (f.n == f.v)
  | .le => f.z || (f.n != f.v)

end Sys2Proof.Machine
end

