-- ==== Sys2Proof/WellFormed.lean ====
section
/-! DEFINITION. Which terms of `Instr` stand for an encodable instruction. -/

namespace Sys2Proof

/-- A register is high: R8 to R15 (10_state.md R12, R14). -/
def Reg.isHigh (r : Reg) : Bool := decide (8 ≤ r.val)

/-- The checks on an instruction term. Every operand of every other instruction ranges over all the
values its field admits (30_encoding.md R60, R61); only the two rows of `CMP`(3) ask for a high
register (30_encoding.md R65, 40_data_processing.md R86). -/
def Instr.wellFormed : Instr → Bool
  | .cmp3High rd _ => rd.isHigh
  | .cmp3Low _ rs => rs.isHigh
  | .halt => true
  | .mov1 _ _ => true
  | .cmp1 _ _ => true
  | .and _ _ => true
  | .eor _ _ => true
  | .asr _ _ => true
  | .tst _ _ => true
  | .neg _ _ => true
  | .cmp2 _ _ => true
  | .add1 _ _ => true
  | .mov2 _ _ => true
  | .str _ _ _ => true
  | .ldr _ _ _ => true
  | .strb _ _ _ => true
  | .ldrb _ _ _ => true
  | .add2 _ _ => true
  | .beq _ => true
  | .bne _ => true
  | .bcs _ => true
  | .bcc _ => true
  | .bmi _ => true
  | .bpl _ => true
  | .bvs _ => true
  | .bvc _ => true
  | .bhi _ => true
  | .bls _ => true
  | .bge _ => true
  | .blt _ => true
  | .bgt _ => true
  | .ble _ => true

/-- The proposition that the checks pass. -/
abbrev Instr.WellFormed (i : Instr) : Prop := i.wellFormed = true

end Sys2Proof
end

