-- ==== Sys2Proof/Decode.lean ====
section
/-! DEFINITION. The decoder, total on any word and any bytes, and after it the encoder, both written
from the seven formats of 30_encoding.md R51 to R58. -/

namespace Sys2Proof

/-- The field of `len` bits whose lowest bit is bit `lo`: `w[lo+len-1:lo]` (00_scope.md R4, R5). -/
def field (w : Halfword) (lo len : Nat) : Nat := w.toNat / 2 ^ lo % 2 ^ len

/-- A 3-bit register field names R0 to R7 by its value (30_encoding.md R61). -/
def lowField (w : Halfword) (lo : Nat) : LowReg := Fin.ofNat 8 (field w lo 3)

/-- A Format 5 register number `H : R`, the H bit above the 3-bit field (30_encoding.md R55). -/
def regField (w : Halfword) (h lo : Nat) : Reg := Fin.ofNat 16 (8 * field w h 1 + field w lo 3)

/-- `Immediate8` or `offset8`, `w[7:0]` (30_encoding.md R53, R57, R58). -/
def imm8Field (w : Halfword) : BitVec 8 := BitVec.ofNat 8 (field w 0 8)

/-- `Imm5`, `w[10:6]` (30_encoding.md R56). -/
def imm5Field (w : Halfword) : BitVec 5 := BitVec.ofNat 5 (field w 6 5)

/-- The byte at the lower address holds bits 7 to 0 (20_memory.md R34). -/
def joinBytes (low high : Byte) : Halfword := high ++ low

/-- Bits 7 to 0 of a halfword. -/
def lowByte (h : Halfword) : Byte := h.setWidth 8

/-- Bits 15 to 8 of a halfword. -/
def highByte (h : Halfword) : Byte := (h >>> 8).setWidth 8

/-- Why bits are no instruction: the rows of the table under 30_encoding.md R63. -/
inductive DecodeError where
  /-- 0x0001 to 0x00FF: Format 0, OP = 0, `<unused>` not zero (R64). -/
  | haltUnusedNotZero
  /-- 0x0100 to 0x1FFF: Format 0, OP = 1 to 31. -/
  | format0Op
  /-- 0x3000 to 0x3FFF: Format 3, OP = 2 or 3. -/
  | format3Op
  /-- 0x4180 to 0x43FF: Format 4, OP = 6 to 15. -/
  | format4Op
  /-- 0x4500 to 0x453F: `CMP`(3) with H1 = H2 = 0, "undefined" (R65). -/
  | cmp3BothLow
  /-- 0x4700 to 0x47FF: Format 5, OP = 3. -/
  | format5Op
  /-- 0x4800 to 0x5FFF, 0x8000 to 0x9FFF, 0xB000 to 0xCFFF, 0xE000 to 0xFFFF: no format. -/
  | noFormat
  /-- 0xA800 to 0xAFFF: Format 12, SP = 1. -/
  | format12Sp
  /-- 0xDE00 to 0xDFFF: Format 16, Cond = 1110 or 1111 (42_branch.md R112). -/
  | format16Cond
  /-- Fewer than two bytes are left: every instruction is one halfword (R50). -/
  | tooFewBytes
  deriving DecidableEq, Repr

/-- Format 0 (R52, R64). `ignoresUnused` is the parameter `HALT_IGNORES_UNUSED`. -/
def decodeFormat0 (ignoresUnused : Bool) (w : Halfword) : Except DecodeError Instr :=
  if field w 8 5 = 0 then
    if field w 0 8 = 0 || ignoresUnused then .ok .halt else .error .haltUnusedNotZero
  else .error .format0Op

/-- Format 3 (R53). -/
def decodeFormat3 (w : Halfword) : Except DecodeError Instr :=
  match field w 11 2 with
  | 0 => .ok (.mov1 (lowField w 8) (imm8Field w))
  | 1 => .ok (.cmp1 (lowField w 8) (imm8Field w))
  | _ => .error .format3Op

/-- Format 4 (R54). -/
def decodeFormat4 (w : Halfword) : Except DecodeError Instr :=
  match field w 6 4 with
  | 0 => .ok (.and (lowField w 0) (lowField w 3))
  | 1 => .ok (.eor (lowField w 0) (lowField w 3))
  | 2 => .ok (.asr (lowField w 0) (lowField w 3))
  | 3 => .ok (.tst (lowField w 0) (lowField w 3))
  | 4 => .ok (.neg (lowField w 0) (lowField w 3))
  | 5 => .ok (.cmp2 (lowField w 0) (lowField w 3))
  | _ => .error .format4Op

/-- Format 5 (R55, R61, R65). -/
def decodeFormat5 (w : Halfword) : Except DecodeError Instr :=
  match field w 8 2 with
  | 0 => .ok (.add1 (regField w 7 0) (regField w 6 3))
  | 1 =>
    if field w 7 1 = 1 then .ok (.cmp3High (regField w 7 0) (regField w 6 3))
    else if field w 6 1 = 1 then .ok (.cmp3Low (lowField w 0) (regField w 6 3))
    else .error .cmp3BothLow
  | 2 => .ok (.mov2 (regField w 7 0) (regField w 6 3))
  | _ => .error .format5Op

/-- Format 9, by B = `w[12]` and L = `w[11]` (R56). -/
def decodeFormat9 (w : Halfword) : Instr :=
  match field w 12 1, field w 11 1 with
  | 0, 0 => .str (lowField w 0) (lowField w 3) (imm5Field w)
  | 0, _ => .ldr (lowField w 0) (lowField w 3) (imm5Field w)
  | _, 0 => .strb (lowField w 0) (lowField w 3) (imm5Field w)
  | _, _ => .ldrb (lowField w 0) (lowField w 3) (imm5Field w)

/-- Format 12, by SP = `w[11]` (R57). -/
def decodeFormat12 (w : Halfword) : Except DecodeError Instr :=
  if field w 11 1 = 0 then .ok (.add2 (lowField w 8) (imm8Field w)) else .error .format12Sp

/-- Format 16, by Cond = `w[11:8]` (R58; 42_branch.md R111, R112). -/
def decodeFormat16 (w : Halfword) : Except DecodeError Instr :=
  match field w 8 4 with
  | 0 => .ok (.beq (imm8Field w))
  | 1 => .ok (.bne (imm8Field w))
  | 2 => .ok (.bcs (imm8Field w))
  | 3 => .ok (.bcc (imm8Field w))
  | 4 => .ok (.bmi (imm8Field w))
  | 5 => .ok (.bpl (imm8Field w))
  | 6 => .ok (.bvs (imm8Field w))
  | 7 => .ok (.bvc (imm8Field w))
  | 8 => .ok (.bhi (imm8Field w))
  | 9 => .ok (.bls (imm8Field w))
  | 10 => .ok (.bge (imm8Field w))
  | 11 => .ok (.blt (imm8Field w))
  | 12 => .ok (.bgt (imm8Field w))
  | 13 => .ok (.ble (imm8Field w))
  | _ => .error .format16Cond

/-- The decoder: the high bits select the format (R51), the format its operation. -/
def decode (ignoresUnused : Bool) (w : Halfword) : Except DecodeError Instr :=
  match field w 13 3 with
  | 0 => decodeFormat0 ignoresUnused w
  | 1 => decodeFormat3 w
  | 2 =>
    match field w 10 3 with
    | 0 => decodeFormat4 w
    | 1 => decodeFormat5 w
    | _ => .error .noFormat
  | 3 => .ok (decodeFormat9 w)
  | 5 => if field w 12 1 = 0 then decodeFormat12 w else .error .noFormat
  | 6 => if field w 12 1 = 1 then decodeFormat16 w else .error .noFormat
  | _ => .error .noFormat

/-- The decoder on bytes in memory order: the instruction and the bytes after it (R50, R35). -/
def decodeBytes (ignoresUnused : Bool) : List Byte → Except DecodeError (Instr × List Byte)
  | low :: high :: rest =>
    match decode ignoresUnused (joinBytes low high) with
    | .ok i => .ok (i, rest)
    | .error e => .error e
  | _ => .error .tooFewBytes

/-- The instruction word of bits numbered as spec/opcode_table.json numbers them; a bit above
`nbits` is 0. -/
def tableWord (nbits w : Nat) : Halfword := BitVec.ofNat 16 (w % 2 ^ nbits)

/-- The instruction the decoder reads from a row's bits, under the default
`HALT_IGNORES_UNUSED = false`. -/
def decodeTableWord (nbits w : Nat) : Option Instr :=
  match decodeBytes false [lowByte (tableWord nbits w), highByte (tableWord nbits w)] with
  | .ok (i, _) => some i
  | .error _ => none

/-! ### The encoder -/

/-- Formats 3 and 12: fixed bits, `Rd` in bits 10 to 8, `Immediate8` in bits 7 to 0 (R53, R57). -/
def encodeRdImm8 (fixed : Nat) (rd : LowReg) (imm8 : BitVec 8) : Halfword :=
  BitVec.ofNat 16 (fixed + 2 ^ 8 * rd.val + imm8.toNat)

/-- Format 4: fixed bits, `Rs` in bits 5 to 3, `Rd` in bits 2 to 0 (R54). -/
def encodeRdRs (fixed : Nat) (rd rs : LowReg) : Halfword :=
  BitVec.ofNat 16 (fixed + 2 ^ 3 * rs.val + rd.val)

/-- Format 5: fixed bits, H1 and H2 in bits 7 and 6, `Rs` in bits 5 to 3, `Rd` in bits 2 to 0
(R55). -/
def encodeHiRegs (fixed : Nat) (rd rs : Reg) : Halfword :=
  BitVec.ofNat 16
    (fixed + 2 ^ 7 * (rd.val / 8) + 2 ^ 6 * (rs.val / 8) + 2 ^ 3 * (rs.val % 8) + rd.val % 8)

/-- Format 9: fixed bits with B and L, `Imm5` in bits 10 to 6, `Rb` in bits 5 to 3, `Rd` in bits
2 to 0 (R56). -/
def encodeRdRbImm5 (fixed : Nat) (rd rb : LowReg) (imm5 : BitVec 5) : Halfword :=
  BitVec.ofNat 16 (fixed + 2 ^ 6 * imm5.toNat + 2 ^ 3 * rb.val + rd.val)

/-- Format 16: 1101, Cond in bits 11 to 8, `offset8` in bits 7 to 0 (R58). -/
def encodeBranch (cond : Nat) (offset8 : BitVec 8) : Halfword :=
  BitVec.ofNat 16 (0xD000 + 2 ^ 8 * cond + offset8.toNat)

/-- The one word of a well-formed instruction, by the match column of R62 and the fields of its
format. -/
def encode : Instr → Halfword
  | .halt => 0x0000
  | .mov1 rd imm8 => encodeRdImm8 0x2000 rd imm8
  | .cmp1 rd imm8 => encodeRdImm8 0x2800 rd imm8
  | .and rd rs => encodeRdRs 0x4000 rd rs
  | .eor rd rs => encodeRdRs 0x4040 rd rs
  | .asr rd rs => encodeRdRs 0x4080 rd rs
  | .tst rd rs => encodeRdRs 0x40C0 rd rs
  | .neg rd rs => encodeRdRs 0x4100 rd rs
  | .cmp2 rd rs => encodeRdRs 0x4140 rd rs
  | .add1 rd rs => encodeHiRegs 0x4400 rd rs
  | .cmp3High rd rs => encodeHiRegs 0x4500 rd rs
  | .cmp3Low rd rs => encodeHiRegs 0x4500 rd.toReg rs
  | .mov2 rd rs => encodeHiRegs 0x4600 rd rs
  | .str rd rb imm5 => encodeRdRbImm5 0x6000 rd rb imm5
  | .ldr rd rb imm5 => encodeRdRbImm5 0x6800 rd rb imm5
  | .strb rd rb imm5 => encodeRdRbImm5 0x7000 rd rb imm5
  | .ldrb rd rb imm5 => encodeRdRbImm5 0x7800 rd rb imm5
  | .add2 rd imm8 => encodeRdImm8 0xA000 rd imm8
  | .beq o => encodeBranch 0 o
  | .bne o => encodeBranch 1 o
  | .bcs o => encodeBranch 2 o
  | .bcc o => encodeBranch 3 o
  | .bmi o => encodeBranch 4 o
  | .bpl o => encodeBranch 5 o
  | .bvs o => encodeBranch 6 o
  | .bvc o => encodeBranch 7 o
  | .bhi o => encodeBranch 8 o
  | .bls o => encodeBranch 9 o
  | .bge o => encodeBranch 10 o
  | .blt o => encodeBranch 11 o
  | .bgt o => encodeBranch 12 o
  | .ble o => encodeBranch 13 o

/-- The bytes of an instruction in memory order, the low byte first (20_memory.md R34, R35). -/
def encodeBytes (i : Instr) : List Byte := [lowByte (encode i), highByte (encode i)]

/-- The mask and match of each instruction's row (the table under R62; `CMP`(3) by its two rows of
spec/opcode_table.json). -/
def opcodeRow : Instr → Halfword × Halfword
  | .halt => (0xFFFF, 0x0000)
  | .mov1 _ _ => (0xF800, 0x2000)
  | .cmp1 _ _ => (0xF800, 0x2800)
  | .and _ _ => (0xFFC0, 0x4000)
  | .eor _ _ => (0xFFC0, 0x4040)
  | .asr _ _ => (0xFFC0, 0x4080)
  | .tst _ _ => (0xFFC0, 0x40C0)
  | .neg _ _ => (0xFFC0, 0x4100)
  | .cmp2 _ _ => (0xFFC0, 0x4140)
  | .add1 _ _ => (0xFF00, 0x4400)
  | .cmp3High _ _ => (0xFF80, 0x4580)
  | .cmp3Low _ _ => (0xFFC0, 0x4540)
  | .mov2 _ _ => (0xFF00, 0x4600)
  | .str _ _ _ => (0xF800, 0x6000)
  | .ldr _ _ _ => (0xF800, 0x6800)
  | .strb _ _ _ => (0xF800, 0x7000)
  | .ldrb _ _ _ => (0xF800, 0x7800)
  | .add2 _ _ => (0xF800, 0xA000)
  | .beq _ => (0xFF00, 0xD000)
  | .bne _ => (0xFF00, 0xD100)
  | .bcs _ => (0xFF00, 0xD200)
  | .bcc _ => (0xFF00, 0xD300)
  | .bmi _ => (0xFF00, 0xD400)
  | .bpl _ => (0xFF00, 0xD500)
  | .bvs _ => (0xFF00, 0xD600)
  | .bvc _ => (0xFF00, 0xD700)
  | .bhi _ => (0xFF00, 0xD800)
  | .bls _ => (0xFF00, 0xD900)
  | .bge _ => (0xFF00, 0xDA00)
  | .blt _ => (0xFF00, 0xDB00)
  | .bgt _ => (0xFF00, 0xDC00)
  | .ble _ => (0xFF00, 0xDD00)

end Sys2Proof
end

