-- ==== Sys2Proof/Machine/Memory.lean ====
section
/-! DEFINITION. Reading and writing bytes of memory, the canonical form, and the set of written
addresses. -/

namespace Sys2Proof.Machine

/-- What a byte that the memory does not list reads as. DESIGN CHOICE, unsafe (log 3): the manual
gives no reset contents (70_reset_and_hazards.md R141). -/
def Memory.unlisted (_address : Nat) : Byte := 0

/-- The byte at an address: the last value written, or the launch's (20_memory.md R32). -/
def Memory.read : Memory → Nat → Byte
  | [], a => Memory.unlisted a
  | c :: rest, a => if c.1 = a then c.2 else Memory.read rest a

/-- The memory without an entry for the address. -/
def Memory.erase (m : Memory) (a : Nat) : Memory := m.filter fun c => c.1 != a

/-- The memory with an entry before the first higher address. -/
def Memory.insert (a : Nat) (v : Byte) : Memory → Memory
  | [] => [(a, v)]
  | c :: rest => if a < c.1 then (a, v) :: c :: rest else c :: Memory.insert a v rest

/-- One byte written; a byte equal to what an unlisted address reads as is not listed. -/
def Memory.write (m : Memory) (a : Nat) (v : Byte) : Memory :=
  if v = Memory.unlisted a then m.erase a else Memory.insert a v (m.erase a)

/-- The canonical form: addresses strictly rising and below 2^16 (20_memory.md R30), no byte listed
that an unlisted address reads as. Equal memories are then equal lists. -/
abbrev Memory.wf (m : Memory) : Prop :=
  m.Pairwise (fun x y => x.1 < y.1) ∧ ∀ c ∈ m, c.1 < 65536 ∧ c.2 ≠ Memory.unlisted c.1

/-- The halfword `Memory[a + 1] : Memory[a]`, the addresses taken modulo 2^16 (20_memory.md R34, R39,
R31). -/
def Memory.readHalfword (m : Memory) (a : Halfword) : Halfword :=
  joinBytes (m.read a.toNat) (m.read (a + 1).toNat)

/-- `Memory[a] <- v[7:0]`, `Memory[a + 1] <- v[15:8]` (20_memory.md R34, R39). -/
def Memory.writeHalfword (m : Memory) (a : Halfword) (v : Halfword) : Memory :=
  (m.write a.toNat (lowByte v)).write (a + 1).toNat (highByte v)

/-- A set of addresses with one more, kept strictly rising (20_memory.md R42). -/
def addAddress (a : Nat) : List Nat → List Nat
  | [] => [a]
  | b :: rest => if a < b then a :: b :: rest else if a = b then b :: rest else b :: addAddress a rest

/-- The canonical form of a set of addresses: strictly rising and below 2^16. -/
abbrev writtenWf (w : List Nat) : Prop := w.Pairwise (· < ·) ∧ ∀ a ∈ w, a < 65536

end Sys2Proof.Machine
end

