-- ==== Sys2Proof/Machine/Operands.lean ====
section
/-! DEFINITION. The operand values of 30_encoding.md R59 and R60, and the shift of `ASR`. -/

namespace Sys2Proof.Machine

/-- `zext_16(w[7:0])`, 0 to 255: `MOV`(1), `CMP`(1) (R60). -/
def immediate8 (imm8 : BitVec 8) : Halfword := imm8.setWidth 16

/-- `zext_16(w[10:6])`, 0 to 31: the offset of `LDRB`, `STRB` (R60). -/
def byteOffset (imm5 : BitVec 5) : Halfword := imm5.setWidth 16

/-- `zext_16(w[10:6]) << 2`, 0 to 124: the offset of `LDR`, `STR` (R60). -/
def halfwordOffset (imm5 : BitVec 5) : Halfword := imm5.setWidth 16 <<< 2

/-- `zext_16(w[7:0]) << 2`, 0 to 1020: the offset of `ADD`(2) (R60). -/
def pcOffset (imm8 : BitVec 8) : Halfword := imm8.setWidth 16 <<< 2

/-- `sext_16(w[7:0] : 0)`, -256 to +254: the branch offset (R60, 42_branch.md R110). -/
def branchOffset (offset8 : BitVec 8) : Halfword := (offset8 ++ 0#1).signExtend 16

/-- The shift amount of `ASR`, `u(Rs[7:0])`, 0 to 255 (40_data_processing.md R83). -/
def shiftAmount (rs : Halfword) : Nat := (rs.setWidth 8).toNat

/-- The result of `ASR` (40_data_processing.md R83). -/
def asrResult (v : Halfword) (n : Nat) : Halfword :=
  if n = 0 then v
  else if n < 16 then v.sshiftRight n
  else if v.getLsbD 15 then 0xFFFF else 0x0000

/-- The C flag after `ASR`: unaffected by a shift of 0, else the last bit shifted out, the sign for
a shift of 16 or more (40_data_processing.md R83). -/
def asrCarry (c : Bool) (v : Halfword) (n : Nat) : Bool :=
  if n = 0 then c else if n < 16 then v.getLsbD (n - 1) else v.getLsbD 15

end Sys2Proof.Machine
end

