-- ==== Sys2Proof/Machine/Ops.lean ====
section
/-! DEFINITION. The operations the meanings share: registers, the advance of the PC, address
arithmetic, loads and stores in memory and in the I/O region, and fetch.

PAW has no exceptions: "No exceptions of any kind are detected by a PAW processor" (60_exceptions.md
R130), so there is no operation that takes one and none that returns from one. The model faults of
R134 end the run. -/

namespace Sys2Proof.Machine

/-- The outcome of an operation that answers a value of type `α`. -/
abbrev Result (α : Type) := Host.Outcome α Fault Refusal

/-- One operation after another; a fault or a refusal ends the instruction (60_exceptions.md R131). -/
def andThen {α β : Type} (o : Result α) (f : α → Result β) : Result β :=
  match o with
  | .next a => f a
  | .fault r => .fault r
  | .refused r => .refused r

/-! ### Registers -/

/-- `x[i]`: R0 to R14, and for number 15 the PC, the address of the instruction being executed
(10_state.md R14, 40_data_processing.md R79). -/
def State.readReg (s : State) (r : Reg) : Halfword :=
  if h : r.val < 15 then s.regs[r.val] else s.pc

/-- `x[i] <- v`: for number 15 the PC, all 16 bits kept (10_state.md R15, R27). No register is
hard-wired (R10). -/
def State.writeReg (s : State) (r : Reg) (v : Halfword) : State :=
  if h : r.val < 15 then s.setRegs (s.regs.set r.val v) else s.setPc v

/-- A low register (10_state.md R11). -/
def State.readLow (s : State) (r : LowReg) : Halfword := s.readReg r.toReg

/-- A low register written (10_state.md R11). -/
def State.writeLow (s : State) (r : LowReg) (v : Halfword) : State := s.writeReg r.toReg v

/-! ### The end of an instruction -/

/-- `pc <- pc + 2` (10_state.md R16), and at 0xFFFE what `PC_FALLTHROUGH_POLICY` says (R17): the
instruction is complete, so the fault carries the state it leaves. -/
def advance (s : State) : Result State :=
  if s.pc = 0xFFFE ∧ s.params.fallThrough = .fault then .fault (.pcFallThrough s)
  else .next (s.setPc (s.pc + 2))

/-- The end of an instruction with destination `d`: an explicit write of the PC replaces the advance
(10_state.md R15). -/
def advanceUnlessPC (d : Reg) (s : State) : Result State :=
  if d = regPC then .next s else advance s

/-! ### Addresses -/

/-- An address from its exact integer value: the low 16 bits, or `AddressWrap` when it leaves
0..65535 under `WRAP_POLICY = fault` (20_memory.md R31). -/
def wrapAddress (p : Params) (exact : Int) : Result Halfword :=
  if p.wrap = .fault ∧ (exact < 0 ∨ 65535 < exact) then .fault .addressWrap
  else .next (BitVec.ofInt 16 exact)

/-- The one addressing mode, base register plus unsigned offset (41_load_store.md R104). -/
def effectiveAddress (s : State) (rb : LowReg) (offset : Halfword) : Result Halfword :=
  wrapAddress s.params ((s.readLow rb).toNat + offset.toNat)

/-- `address[1:0] = 00` (20_memory.md R38). -/
def wordAligned (a : Halfword) : Bool := decide (a.toNat % 4 = 0)

/-- The address is in the memory-mapped I/O region (20_memory.md R36). -/
def isMmio (p : Params) (a : Halfword) : Bool :=
  p.mmioRegion.any fun r => decide (r.first ≤ a.toNat) && decide (a.toNat ≤ r.last)

/-! ### Loads and stores -/

/-- An access reaches the devices: once, in program order (20_memory.md R45). -/
def State.recordEvent (s : State) (e : DeviceEvent) : State :=
  s.setEvents (s.deviceEvents ++ [e])

/-- The counter after one more free value (log 7). -/
def State.nextDraw (s : State) : State := s.setDraws (s.draws + 1)

/-- An address enters the set of addresses stored to (20_memory.md R42). -/
def State.markWritten (s : State) (a : Halfword) : State :=
  s.setWritten (addAddress a.toNat s.written)

/-- `MemRead(a, 1)` (20_memory.md R39): memory, or the device's answer (R36). -/
def loadByte (s : State) (a : Halfword) : Byte × State :=
  if isMmio s.params a then
    (Config.deviceByte s.draws s.deviceEvents a,
      s.nextDraw.recordEvent (.loadByte a (Config.deviceByte s.draws s.deviceEvents a)))
  else (s.mem.read a.toNat, s)

/-- `MemRead(a, 2)` (20_memory.md R39): memory, or one 16-bit access to the device (R36, R41); an
access across the edge of the region is refused (93_implementation_defined.md I18). -/
def loadHalfword (s : State) (a : Halfword) : Result (Halfword × State) :=
  match isMmio s.params a, isMmio s.params (a + 1) with
  | false, false => .next (s.mem.readHalfword a, s)
  | true, true =>
    .next (Config.deviceHalfword s.draws s.deviceEvents a,
      s.nextDraw.recordEvent (.loadHalfword a (Config.deviceHalfword s.draws s.deviceEvents a)))
  | _, _ => .refused .mmioStraddle

/-- `MemWrite(a, 1, v)` (20_memory.md R39): memory, or the device, which leaves memory unchanged
(R36). -/
def storeByte (s : State) (a : Halfword) (v : Byte) : State :=
  if isMmio s.params a then (s.recordEvent (.storeByte a v)).markWritten a
  else (s.setMem (s.mem.write a.toNat v)).markWritten a

/-- `MemWrite(a, 2, v)` (20_memory.md R39): memory, or one 16-bit access to the device (R36, R41); an
access across the edge of the region is refused (93_implementation_defined.md I18). -/
def storeHalfword (s : State) (a : Halfword) (v : Halfword) : Result State :=
  match isMmio s.params a, isMmio s.params (a + 1) with
  | false, false =>
    .next (((s.setMem (s.mem.writeHalfword a v)).markWritten a).markWritten (a + 1))
  | true, true =>
    .next (((s.recordEvent (.storeHalfword a v)).markWritten a).markWritten (a + 1))
  | _, _ => .refused .mmioStraddle

/-- The data of `LDR` (41_load_store.md R100): the halfword at an address divisible by 4; at any
other address a model fault, or a free value in place of the data, by `MISALIGNED_POLICY`
(20_memory.md R38, 90_conflicts.md C3; logs 6, 15). -/
def loadData (s : State) (a : Halfword) : Result (Halfword × State) :=
  if wordAligned a then loadHalfword s a
  else match s.params.misaligned with
    | .fault => .fault .unpredictableAccess
    | .draw =>
      andThen (loadHalfword s a) fun p =>
        .next (Config.misalignedLoad p.2.draws a, p.2.nextDraw)

/-- The store of `STR` (41_load_store.md R102): the halfword at an address divisible by 4; at any
other address a model fault, or free values in the two bytes, by `MISALIGNED_POLICY`
(20_memory.md R38, 90_conflicts.md C3; logs 6, 15). -/
def storeData (s : State) (a : Halfword) (v : Halfword) : Result State :=
  if wordAligned a then storeHalfword s a v
  else match s.params.misaligned with
    | .fault => .fault .unpredictableAccess
    | .draw => storeHalfword s.nextDraw a (Config.misalignedStore s.draws a v)

/-! ### Branches -/

/-- `B<cond>` (42_branch.md R110): the target is the branch's own address plus the offset. -/
def branchIf (c : Cond) (offset8 : BitVec 8) (s : State) : Result State :=
  if conditionPassed c s.flags then
    andThen (wrapAddress s.params (s.pc.toNat + (branchOffset offset8).toInt)) fun target =>
      .next (s.setPc target)
  else advance s

/-! ### Fetch -/

/-- A fetch at this PC would touch the I/O region (20_memory.md R43). -/
def State.fetchesMmio (s : State) : Bool :=
  isMmio s.params s.pc || isMmio s.params (s.pc + 1)

/-- A fetch at this PC would touch a byte a store has written (20_memory.md R42). -/
def State.fetchesWritten (s : State) : Bool :=
  s.written.contains s.pc.toNat || s.written.contains (s.pc + 1).toNat

/-- The fetch of the halfword at the PC (20_memory.md R35), and the model faults in its place: an odd
PC (10_state.md R27), the I/O region (R43), a stored byte (R42). Their order is log 14. -/
def fetch (s : State) : Result Halfword :=
  if s.pc.toNat % 2 = 1 then .fault .misalignedFetch
  else if s.fetchesMmio then .fault .fetchFromMmio
  else if s.params.smc = .fault ∧ s.fetchesWritten = true then .fault .fetchAfterStore
  else .next (s.mem.readHalfword s.pc)

/-- The decoding of a fetched word; a word that is no instruction is a model fault
(30_encoding.md R63). -/
def decodeFetched (s : State) (w : Halfword) : Result Instr :=
  match decode s.params.haltIgnoresUnused w with
  | .ok i => .next i
  | .error _ => .fault .unassignedEncoding

/-- The state with a word where the next fetch reads it, and with nothing in that fetch's way: an
even PC outside the I/O region, its bytes not among the written ones, the machine not halted
(log 16). -/
def placeFetchWord (s : State) (w : Halfword) : State :=
  let t := s.setPc (BitVec.ofNat 16 (s.pc.toNat / 2 * 2))
  let u := if t.fetchesMmio then t.setParams { t.params with mmioRegion := [] } else t
  let a := u.pc
  ((u.setMem (u.mem.writeHalfword a w)).setWritten
    (u.written.filter fun b => b != a.toNat && b != (a + 1).toNat)).setHalted false

end Sys2Proof.Machine
end

