-- ==== Sys2Proof/Machine/Branch.lean ====
section
/-! DEFINITION. The conditional branch (42_branch.md R110), one meaning for each of the fourteen
conditions of R111. -/

namespace Sys2Proof.Machine

/-- `BEQ` (R110): taken if Z = 1. -/
def execBeq (offset8 : BitVec 8) (s : State) : Result State := branchIf .eq offset8 s

/-- `BNE` (R110): taken if Z = 0. -/
def execBne (offset8 : BitVec 8) (s : State) : Result State := branchIf .ne offset8 s

/-- `BCS` (R110): taken if C = 1. -/
def execBcs (offset8 : BitVec 8) (s : State) : Result State := branchIf .cs offset8 s

/-- `BCC` (R110): taken if C = 0. -/
def execBcc (offset8 : BitVec 8) (s : State) : Result State := branchIf .cc offset8 s

/-- `BMI` (R110): taken if N = 1. -/
def execBmi (offset8 : BitVec 8) (s : State) : Result State := branchIf .mi offset8 s

/-- `BPL` (R110): taken if N = 0. -/
def execBpl (offset8 : BitVec 8) (s : State) : Result State := branchIf .pl offset8 s

/-- `BVS` (R110): taken if V = 1. -/
def execBvs (offset8 : BitVec 8) (s : State) : Result State := branchIf .vs offset8 s

/-- `BVC` (R110): taken if V = 0. -/
def execBvc (offset8 : BitVec 8) (s : State) : Result State := branchIf .vc offset8 s

/-- `BHI` (R110): taken if C = 1 and Z = 0. -/
def execBhi (offset8 : BitVec 8) (s : State) : Result State := branchIf .hi offset8 s

/-- `BLS` (R110): taken if C = 0 or Z = 1. -/
def execBls (offset8 : BitVec 8) (s : State) : Result State := branchIf .ls offset8 s

/-- `BGE` (R110): taken if N = V. -/
def execBge (offset8 : BitVec 8) (s : State) : Result State := branchIf .ge offset8 s

/-- `BLT` (R110): taken if N and V differ. -/
def execBlt (offset8 : BitVec 8) (s : State) : Result State := branchIf .lt offset8 s

/-- `BGT` (R110): taken if Z = 0 and N = V. -/
def execBgt (offset8 : BitVec 8) (s : State) : Result State := branchIf .gt offset8 s

/-- `BLE` (R110): taken if Z = 1 or N and V differ. -/
def execBle (offset8 : BitVec 8) (s : State) : Result State := branchIf .le offset8 s

end Sys2Proof.Machine
end

