-- ==== Sys2Proof/Machine/DataProcessing.lean ====
section
/-! DEFINITION. The data processing instructions (40_data_processing.md R80 to R91). -/

namespace Sys2Proof.Machine

/-- An instruction that writes a low register and sets N and Z from what it wrote
(40_data_processing.md R82, R87, R88). -/
def writeLowNZ (rd : LowReg) (result : Halfword) (s : State) : Result State :=
  advance ((s.writeLow rd result).setFlags (s.flags.setNZ result))

/-- An instruction that only sets flags. -/
def setFlagsOnly (f : Flags) (s : State) : Result State := advance (s.setFlags f)

/-- The comparison of `CMP`(3): undefined for two low registers (30_encoding.md R65), else the flags
of the difference (40_data_processing.md R86). -/
def compareHigh (rd rs : Reg) (s : State) : Result State :=
  if !rd.isHigh && !rs.isHigh then .fault .unassignedEncoding
  else setFlagsOnly (subWithFlags (s.readReg rd) (s.readReg rs)).flags s

/-- `ADD`(1) (R80). Both operands are read before anything is written (R79). -/
def execAdd1 (rd rs : Reg) (s : State) : Result State :=
  let o := addWithFlags (s.readReg rd) (s.readReg rs)
  advanceUnlessPC rd ((s.writeReg rd o.result).setFlags o.flags)

/-- `ADD`(2) (R81): the PC with bits 1 and 0 cleared, plus the scaled immediate. No flag is
written. -/
def execAdd2 (rd : LowReg) (imm8 : BitVec 8) (s : State) : Result State :=
  andThen (wrapAddress s.params ((s.pc &&& 0xFFFC).toNat + (pcOffset imm8).toNat)) fun result =>
    advance (s.writeLow rd result)

/-- `AND` (R82). -/
def execAnd (rd rs : LowReg) (s : State) : Result State :=
  writeLowNZ rd (s.readLow rd &&& s.readLow rs) s

/-- `ASR` (R83). -/
def execAsr (rd rs : LowReg) (s : State) : Result State :=
  let n := shiftAmount (s.readLow rs)
  let v := s.readLow rd
  let result := asrResult v n
  advance ((s.writeLow rd result).setFlags
    (Flags.setNZ { s.flags with c := asrCarry s.flags.c v n } result))

/-- `CMP`(1) (R84). -/
def execCmp1 (rd : LowReg) (imm8 : BitVec 8) (s : State) : Result State :=
  setFlagsOnly (subWithFlags (s.readLow rd) (immediate8 imm8)).flags s

/-- `CMP`(2) (R85). -/
def execCmp2 (rd rs : LowReg) (s : State) : Result State :=
  setFlagsOnly (subWithFlags (s.readLow rd) (s.readLow rs)).flags s

/-- `CMP`(3) with H1 = 1 (R86). -/
def execCmp3High (rd rs : Reg) (s : State) : Result State := compareHigh rd rs s

/-- `CMP`(3) with H1 = 0 and H2 = 1 (R86). -/
def execCmp3Low (rd : LowReg) (rs : Reg) (s : State) : Result State := compareHigh rd.toReg rs s

/-- `EOR` (R87). -/
def execEor (rd rs : LowReg) (s : State) : Result State :=
  writeLowNZ rd (s.readLow rd ^^^ s.readLow rs) s

/-- `MOV`(1) (R88). "N Flag = 0": bit 15 of a zero-extended byte. -/
def execMov1 (rd : LowReg) (imm8 : BitVec 8) (s : State) : Result State :=
  writeLowNZ rd (immediate8 imm8) s

/-- `MOV`(2) (R89). -/
def execMov2 (rd rs : Reg) (s : State) : Result State :=
  let result := s.readReg rs
  advanceUnlessPC rd ((s.writeReg rd result).setFlags (s.flags.setNZ result))

/-- `NEG` (R90): the subtraction `0 - Rs`. -/
def execNeg (rd rs : LowReg) (s : State) : Result State :=
  let o := subWithFlags 0 (s.readLow rs)
  advance ((s.writeLow rd o.result).setFlags o.flags)

/-- `TST` (R91). -/
def execTst (rd rs : LowReg) (s : State) : Result State :=
  setFlagsOnly (s.flags.setNZ (s.readLow rd &&& s.readLow rs)) s

end Sys2Proof.Machine
end

