-- ==== Sys2Proof/Machine/LoadStore.lean ====
section
/-! DEFINITION. The load and store instructions (41_load_store.md R100 to R104). -/

namespace Sys2Proof.Machine

/-- `LDR` (R100). The base is read before the destination is written, so `Rd = Rb` is allowed. -/
def execLdr (rd rb : LowReg) (imm5 : BitVec 5) (s : State) : Result State :=
  andThen (effectiveAddress s rb (halfwordOffset imm5)) fun a =>
    andThen (loadData s a) fun p => advance (p.2.writeLow rd p.1)

/-- `LDRB` (R101): the byte is zero-extended. -/
def execLdrb (rd rb : LowReg) (imm5 : BitVec 5) (s : State) : Result State :=
  andThen (effectiveAddress s rb (byteOffset imm5)) fun a =>
    let p := loadByte s a
    advance (p.2.writeLow rd (p.1.setWidth 16))

/-- `STR` (R102). -/
def execStr (rd rb : LowReg) (imm5 : BitVec 5) (s : State) : Result State :=
  andThen (effectiveAddress s rb (halfwordOffset imm5)) fun a =>
    andThen (storeData s a (s.readLow rd)) fun t => advance t

/-- `STRB` (R103): bits 7 to 0 of the register. -/
def execStrb (rd rb : LowReg) (imm5 : BitVec 5) (s : State) : Result State :=
  andThen (effectiveAddress s rb (byteOffset imm5)) fun a =>
    advance (storeByte s a (lowByte (s.readLow rd)))

end Sys2Proof.Machine
end

