-- ==== Sys2Proof/Machine/Miscellaneous.lean ====
section
/-! DEFINITION. `HALT` (43_miscellaneous.md R120). -/

namespace Sys2Proof.Machine

/-- `HALT` (R120): the machine is halted; nothing else is written, and the PC stays at the `HALT` as
bookkeeping only (92_eei_decisions.md D15, log 12). -/
def execHalt (s : State) : Result State := .next (s.setHalted true)

end Sys2Proof.Machine
end

