-- ==== Sys2Proof/Machine/Dispatch.lean ====
section
/-! DEFINITION. The meaning of every instruction, one arm per constructor of `Instr`. -/

namespace Sys2Proof.Machine

def exec (i : Instr) (s : State) : Host.Outcome State Fault Refusal :=
  match i with
  | .halt => Sys2Proof.Machine.execHalt s
  | .mov1 rd imm8 => Sys2Proof.Machine.execMov1 rd imm8 s
  | .cmp1 rd imm8 => Sys2Proof.Machine.execCmp1 rd imm8 s
  | .and rd rs => Sys2Proof.Machine.execAnd rd rs s
  | .eor rd rs => Sys2Proof.Machine.execEor rd rs s
  | .asr rd rs => Sys2Proof.Machine.execAsr rd rs s
  | .tst rd rs => Sys2Proof.Machine.execTst rd rs s
  | .neg rd rs => Sys2Proof.Machine.execNeg rd rs s
  | .cmp2 rd rs => Sys2Proof.Machine.execCmp2 rd rs s
  | .add1 rd rs => Sys2Proof.Machine.execAdd1 rd rs s
  | .cmp3High rd rs => Sys2Proof.Machine.execCmp3High rd rs s
  | .cmp3Low rd rs => Sys2Proof.Machine.execCmp3Low rd rs s
  | .mov2 rd rs => Sys2Proof.Machine.execMov2 rd rs s
  | .str rd rb imm5 => Sys2Proof.Machine.execStr rd rb imm5 s
  | .ldr rd rb imm5 => Sys2Proof.Machine.execLdr rd rb imm5 s
  | .strb rd rb imm5 => Sys2Proof.Machine.execStrb rd rb imm5 s
  | .ldrb rd rb imm5 => Sys2Proof.Machine.execLdrb rd rb imm5 s
  | .add2 rd imm8 => Sys2Proof.Machine.execAdd2 rd imm8 s
  | .beq offset8 => Sys2Proof.Machine.execBeq offset8 s
  | .bne offset8 => Sys2Proof.Machine.execBne offset8 s
  | .bcs offset8 => Sys2Proof.Machine.execBcs offset8 s
  | .bcc offset8 => Sys2Proof.Machine.execBcc offset8 s
  | .bmi offset8 => Sys2Proof.Machine.execBmi offset8 s
  | .bpl offset8 => Sys2Proof.Machine.execBpl offset8 s
  | .bvs offset8 => Sys2Proof.Machine.execBvs offset8 s
  | .bvc offset8 => Sys2Proof.Machine.execBvc offset8 s
  | .bhi offset8 => Sys2Proof.Machine.execBhi offset8 s
  | .bls offset8 => Sys2Proof.Machine.execBls offset8 s
  | .bge offset8 => Sys2Proof.Machine.execBge offset8 s
  | .blt offset8 => Sys2Proof.Machine.execBlt offset8 s
  | .bgt offset8 => Sys2Proof.Machine.execBgt offset8 s
  | .ble offset8 => Sys2Proof.Machine.execBle offset8 s

end Sys2Proof.Machine
end

