-- ==== Sys2Proof/Machine/Step.lean ====
section
/-! DEFINITION. One step of the machine: the instruction cycle of 00_scope.md R8. -/

namespace Sys2Proof.Machine

/-- Unless halted: fetch, decode, execute; the execution sets the PC (R8). A halted machine has no
transition (93_implementation_defined.md I16, log 10). -/
def step (s : State) : Host.Outcome State Fault Refusal :=
  if s.halted then .refused .halted
  else andThen (fetch s) fun w => andThen (decodeFetched s w) fun i => exec i s

/-- The state with an instruction word where the next step fetches (log 16). -/
def State.withFetchWord (s : State) (nbits w : Nat) : State := placeFetchWord s (tableWord nbits w)

end Sys2Proof.Machine
end

