-- ==== Sys2Proof/Safety.lean ====
section
/-! DEFINITION. The terms the statements use: what an instruction keeps, which instructions write
what, the invariant, and safe runs. -/

namespace Sys2Proof.Machine

/-! ### Frames -/

/-- Every general register but `d` reads as before; the PC is left to the statement. -/
def KeepsRegsBut (d : Reg) (s t : State) : Prop :=
  ∀ r : Reg, r ≠ d → r ≠ regPC → t.readReg r = s.readReg r

/-- Every general register reads as before; the PC is left to the statement. -/
def KeepsRegs (s t : State) : Prop := ∀ r : Reg, r ≠ regPC → t.readReg r = s.readReg r

/-- Every byte of memory reads as before. -/
def KeepsMemory (s t : State) : Prop := ∀ a : Nat, t.mem.read a = s.mem.read a

/-- The halted bit, the launch's parameters, the device accesses, the written addresses and the count
of free values are as before: everything but registers, PC, flags and memory. -/
def KeepsRest (s t : State) : Prop :=
  t.halted = s.halted ∧ t.params = s.params ∧ t.deviceEvents = s.deviceEvents ∧
    t.written = s.written ∧ t.draws = s.draws

/-- The PC may advance from here: it is not 0xFFFE, or the policy there is to wrap (10_state.md
R17). -/
def State.CanAdvance (s : State) : Prop := s.pc ≠ 0xFFFE ∨ s.params.fallThrough = .wrap

/-! ### Flags of a subtraction and of an addition, said without the machine's own functions -/

/-- The four flags of `a + b` (10_state.md R19 to R22). -/
def FlagsOfSum (a b : Halfword) (f : Flags) : Prop :=
  f.n = (a + b).getLsbD 15 ∧ (f.z = true ↔ a + b = 0) ∧
    (f.c = true ↔ 65536 ≤ a.toNat + b.toNat) ∧
    (f.v = true ↔ a.toInt + b.toInt < -32768 ∨ 32767 < a.toInt + b.toInt)

/-- The four flags of `a - b`, C meaning "no borrow" (10_state.md R19 to R22). -/
def FlagsOfDifference (a b : Halfword) (f : Flags) : Prop :=
  f.n = (a - b).getLsbD 15 ∧ (f.z = true ↔ a = b) ∧ (f.c = true ↔ b.toNat ≤ a.toNat) ∧
    (f.v = true ↔ a.toInt - b.toInt < -32768 ∨ 32767 < a.toInt - b.toInt)

/-- N and Z from a value, C and V as before (40_data_processing.md R77). -/
def FlagsNZOf (v : Halfword) (old f : Flags) : Prop :=
  f.n = v.getLsbD 15 ∧ (f.z = true ↔ v = 0) ∧ f.c = old.c ∧ f.v = old.v

/-! ### Which instruction writes what -/

/-- The branch instruction of each condition (42_branch.md R111). -/
def branchOf (c : Cond) (offset8 : BitVec 8) : Instr :=
  match c with
  | .eq => .beq offset8
  | .ne => .bne offset8
  | .cs => .bcs offset8
  | .cc => .bcc offset8
  | .mi => .bmi offset8
  | .pl => .bpl offset8
  | .vs => .bvs offset8
  | .vc => .bvc offset8
  | .hi => .bhi offset8
  | .ls => .bls offset8
  | .ge => .bge offset8
  | .lt => .blt offset8
  | .gt => .bgt offset8
  | .le => .ble offset8

/-- The condition of a branch instruction, none for the other instructions. -/
def branchCondition (i : Instr) : Option Cond :=
  match i with
  | .beq _ => some .eq
  | .bne _ => some .ne
  | .bcs _ => some .cs
  | .bcc _ => some .cc
  | .bmi _ => some .mi
  | .bpl _ => some .pl
  | .bvs _ => some .vs
  | .bvc _ => some .vc
  | .bhi _ => some .hi
  | .bls _ => some .ls
  | .bge _ => some .ge
  | .blt _ => some .lt
  | .bgt _ => some .gt
  | .ble _ => some .le
  | .halt | .mov1 _ _ | .cmp1 _ _ | .and _ _ | .eor _ _ | .asr _ _ | .tst _ _ | .neg _ _
  | .cmp2 _ _ | .add1 _ _ | .cmp3High _ _ | .cmp3Low _ _ | .mov2 _ _ | .str _ _ _ | .ldr _ _ _
  | .strb _ _ _ | .ldrb _ _ _ | .add2 _ _ => none

/-- The instruction writes the PC explicitly in this state: a taken branch, or `ADD`(1) or `MOV`(2)
with Rd = R15 (10_state.md R15). -/
def writesPC (i : Instr) (s : State) : Bool :=
  match i with
  | .add1 rd _ => decide (rd = regPC)
  | .mov2 rd _ => decide (rd = regPC)
  | i => match branchCondition i with
    | some c => conditionPassed c s.flags
    | none => false

/-- The instructions of Format 5, the only ones that name R8 to R15 (10_state.md R12). -/
def isFormat5 (i : Instr) : Bool :=
  match i with
  | .add1 _ _ | .cmp3High _ _ | .cmp3Low _ _ | .mov2 _ _ => true
  | _ => false

/-- The flags an instruction writes in this state, the table of 10_state.md R23: a field is true where
the table has `w` or `0`. -/
def flagsWritten (i : Instr) (s : State) : Flags :=
  match i with
  | .add1 _ _ | .cmp1 _ _ | .cmp2 _ _ | .cmp3High _ _ | .cmp3Low _ _ | .neg _ _ =>
    { n := true, z := true, c := true, v := true }
  | .and _ _ | .eor _ _ | .mov1 _ _ | .mov2 _ _ | .tst _ _ =>
    { n := true, z := true, c := false, v := false }
  | .asr _ rs => { n := true, z := true, c := decide ((s.readLow rs).toNat % 256 ≠ 0), v := false }
  | _ => { n := false, z := false, c := false, v := false }

/-! ### Invariant and runs -/

/-- The representation invariant: memory and the set of written addresses in canonical form. -/
def State.Inv (s : State) : Prop := s.mem.wf ∧ writtenWf s.written

/-- `t` is reached from `s` in `k` steps, none of which stopped. -/
def RunsTo (k : Nat) (s t : State) : Prop := Host.Core.run Sys2Proof.core k s = .next t

/-- A safe run: `k` steps from `s` without a fault or a refusal. -/
def SafeRun (k : Nat) (s : State) : Prop := ∃ t, RunsTo k s t

/-- The parameters under which no instruction stops the machine: each policy lets it go on, and there
is no I/O region (20_memory.md R31, R36, R38; 10_state.md R17). -/
def NeverStops (p : Params) : Prop :=
  p.misaligned = .draw ∧ p.wrap = .wrap ∧ p.fallThrough = .wrap ∧ p.mmioRegion = []

/-- An outcome with its state, and the state a fault carries, changed by `f`. -/
def mapOutcome (f : State → State) (o : Host.Outcome State Fault Refusal) :
    Host.Outcome State Fault Refusal :=
  match o with
  | .next s => .next (f s)
  | .fault (.pcFallThrough s) => .fault (.pcFallThrough (f s))
  | .fault r => .fault r
  | .refused r => .refused r

end Sys2Proof.Machine
end

