-- ==== Sys2Proof/Certificates/Slice0/Obligations.lean ====
section
/-! DEFINITION. The statements for the provers. Each says in its docstring which rule of spec/ it
formalises, or which decision of the spec or entry of the assumption log it rests on. -/

open Sys2Proof Sys2Proof.Machine

/-! ### Encoding -/

/-- Decoding the word of a well-formed instruction gives the instruction back, with every operand at
every value its field admits (30_encoding.md sections 3 to 5), whatever `HALT_IGNORES_UNUSED` is. -/
def Obligations.DecodeOfEncodeIsIdentity : Prop :=
  ∀ (ignoresUnused : Bool) (i : Instr), i.WellFormed → decode ignoresUnused (encode i) = .ok i

/-- A word that decodes is the word of the instruction it decodes to, and that instruction is
well-formed: the decoder drops no bit (30_encoding.md sections 3 to 5). -/
def Obligations.EncodeOfDecodeIsIdentity : Prop :=
  ∀ (w : Halfword) (i : Instr), decode false w = .ok i → i.WellFormed ∧ encode i = w

/-- R62: a word is an instruction of a row exactly when, masked, it is the row's match. `opcodeRow j`
is the row of `j`, and two instructions have the same row exactly when their rows are equal pairs. -/
def Obligations.DecodeMatchesOpcodeMap : Prop :=
  ∀ (w : Halfword) (j : Instr),
    w &&& (opcodeRow j).1 = (opcodeRow j).2 ↔
      ∃ i, decode false w = .ok i ∧ opcodeRow i = opcodeRow j

/-- Which words are assigned (30_encoding.md section 6, the sentence "The assigned words are
everything else"); every other word is rejected. -/
def Obligations.AssignedWordRanges : Prop :=
  ∀ w : Halfword, (∃ i, decode false w = .ok i) ↔
    (w.toNat = 0 ∨ (0x2000 ≤ w.toNat ∧ w.toNat ≤ 0x2FFF) ∨ (0x4000 ≤ w.toNat ∧ w.toNat ≤ 0x417F) ∨
      (0x4400 ≤ w.toNat ∧ w.toNat ≤ 0x44FF) ∨ (0x4540 ≤ w.toNat ∧ w.toNat ≤ 0x46FF) ∨
      (0x6000 ≤ w.toNat ∧ w.toNat ≤ 0x7FFF) ∨ (0xA000 ≤ w.toNat ∧ w.toNat ≤ 0xA7FF) ∨
      (0xD000 ≤ w.toNat ∧ w.toNat ≤ 0xDDFF))

/-- One word of each format, written out from the examples of the instruction rules and
95_test_vectors.md section 2, decodes to its instruction. -/
def Obligations.SampleWordsDecode : Prop :=
  decode false 0x0000 = .ok .halt ∧ decode false 0x2B01 = .ok (.cmp1 3 1) ∧
    decode false 0x405A = .ok (.eor 2 3) ∧ decode false 0x45F7 = .ok (.cmp3High 15 14) ∧
    decode false 0x4541 = .ok (.cmp3Low 1 8) ∧ decode false 0x6FC8 = .ok (.ldr 0 1 31) ∧
    decode false 0x70C8 = .ok (.strb 0 1 3) ∧ decode false 0xA302 = .ok (.add2 3 2) ∧
    decode false 0xD1FE = .ok (.bne 0xFE) ∧ decode false 0xDDFF = .ok (.ble 0xFF)

/-- R60: what each immediate field stands for. -/
def Obligations.ImmediateOperandValues : Prop :=
  (∀ imm8 : BitVec 8, (immediate8 imm8).toNat = imm8.toNat ∧
      (pcOffset imm8).toNat = 4 * imm8.toNat ∧ (branchOffset imm8).toInt = 2 * imm8.toInt) ∧
    ∀ imm5 : BitVec 5, (byteOffset imm5).toNat = imm5.toNat ∧
      (halfwordOffset imm5).toNat = 4 * imm5.toNat

/-- The spec's decision D2 (92_eei_decisions.md): by default only 0x0000 is `HALT` among the words
whose OP is 0, and under `HALT_IGNORES_UNUSED` all of 0x0000 to 0x00FF are; no other word decodes
differently. -/
def Obligations.HaltUnusedField : Prop :=
  ∀ w : Halfword,
    (w.toNat < 256 → decode true w = .ok .halt) ∧
    (0 < w.toNat → w.toNat < 256 → decode false w = .error .haltUnusedNotZero) ∧
    (256 ≤ w.toNat → decode true w = decode false w)

/-! ### The step -/

/-- A step runs the decoded instruction (00_scope.md section 5, the instruction cycle): not halted,
an even PC outside the I/O region, no stored byte in the way of the fetch or coherent fetch, and the
two bytes at the PC, low byte first, decode to `i`: the step is `exec` of `i` at the same state.
Nothing stands around `exec` here; `exec` itself sets the PC. -/
def Obligations.StepRunsDecodedInstruction : Prop :=
  ∀ (s : State) (i : Instr), s.halted = false → s.pc.toNat % 2 = 0 →
    isMmio s.params s.pc = false → isMmio s.params (s.pc + 1) = false →
    (s.params.smc = .coherent ∨ (s.pc.toNat ∉ s.written ∧ (s.pc + 1).toNat ∉ s.written)) →
    decode s.params.haltIgnoresUnused
      (s.mem.read (s.pc + 1).toNat ++ s.mem.read s.pc.toNat : Halfword) = .ok i →
    step s = exec i s

/-- The treatment of I16 (93_implementation_defined.md) and the model's form of it (log 10): a halted
machine has no transition. -/
def Obligations.HaltedMachineHasNoStep : Prop :=
  ∀ s : State, s.halted = true → step s = .refused .halted

/-- The spec's decision D6 (92_eei_decisions.md): the two writers of an odd PC, `ADD`(1) and `MOV`(2)
with Rd = R15, store the value unchanged and take their flags from all of it, and the next step faults
at its fetch, as does a step from any odd PC. -/
def Obligations.OddPCFaultsAtFetch : Prop :=
  (∀ s : State, s.halted = false → s.pc.toNat % 2 = 1 → step s = .fault .misalignedFetch) ∧
  ∀ (s t : State) (rs : Reg), s.halted = false →
    ((s.readReg rs).toNat % 2 = 1 → exec (.mov2 regPC rs) s = .next t →
      t.pc = s.readReg rs ∧ FlagsNZOf (s.readReg rs) s.flags t.flags ∧
      step t = .fault .misalignedFetch) ∧
    ((s.pc + s.readReg rs).toNat % 2 = 1 → exec (.add1 regPC rs) s = .next t →
      t.pc = s.pc + s.readReg rs ∧ FlagsOfSum s.pc (s.readReg rs) t.flags ∧
      step t = .fault .misalignedFetch)

/-- The spec's decision D16 (92_eei_decisions.md): a fetch that touches the I/O region faults. -/
def Obligations.FetchFromIOFaults : Prop :=
  ∀ s : State, s.halted = false → s.pc.toNat % 2 = 0 →
    (isMmio s.params s.pc = true ∨ isMmio s.params (s.pc + 1) = true) →
    step s = .fault .fetchFromMmio

/-- The spec's decision D14 (92_eei_decisions.md): a fetch of a stored byte faults under
`SMC_POLICY = fault`, and reads the stored bytes under `SMC_POLICY = coherent`. -/
def Obligations.FetchOfStoredBytes : Prop :=
  ∀ s : State, s.halted = false → s.pc.toNat % 2 = 0 →
    isMmio s.params s.pc = false → isMmio s.params (s.pc + 1) = false →
    (s.pc.toNat ∈ s.written ∨ (s.pc + 1).toNat ∈ s.written) →
    (s.params.smc = .fault → step s = .fault .fetchAfterStore) ∧
    (s.params.smc = .coherent →
      fetch s = .next (s.mem.read (s.pc + 1).toNat ++ s.mem.read s.pc.toNat : Halfword))

/-- The spec's decisions D1 to D4 (92_eei_decisions.md): a fetched word of the table of unassigned
words (30_encoding.md section 6) faults: 0x0001 to 0x00FF under the default
`HALT_IGNORES_UNUSED = false`, every other word of the table under both values. -/
def Obligations.UnassignedWordFaults : Prop :=
  ∀ (s : State) (w : Halfword), s.halted = false → fetch s = .next w →
    ((s.params.haltIgnoresUnused = false ∧ 0x0001 ≤ w.toNat ∧ w.toNat ≤ 0x00FF) ∨
      (0x0100 ≤ w.toNat ∧ w.toNat ≤ 0x1FFF) ∨ (0x3000 ≤ w.toNat ∧ w.toNat ≤ 0x3FFF) ∨
      (0x4180 ≤ w.toNat ∧ w.toNat ≤ 0x43FF) ∨ (0x4500 ≤ w.toNat ∧ w.toNat ≤ 0x453F) ∨
      (0x4700 ≤ w.toNat ∧ w.toNat ≤ 0x5FFF) ∨ (0x8000 ≤ w.toNat ∧ w.toNat ≤ 0x9FFF) ∨
      (0xA800 ≤ w.toNat ∧ w.toNat ≤ 0xCFFF) ∨ (0xDE00 ≤ w.toNat ∧ w.toNat ≤ 0xFFFF)) →
    step s = .fault .unassignedEncoding

/-- The start of every run (70_reset_and_hazards.md section 1): the PC is 0 and the machine is not
halted (the latter is the spec's inference from "begins execution"), and the first step runs the word
at bytes 0 (low) and 1 (high) of the launch's memory, when those are outside the I/O region. -/
def Obligations.LaunchRunsWordAtZero : Prop :=
  ∀ (l : Launch) (i : Instr),
    (State.launch l).pc = 0 ∧ (State.launch l).halted = false ∧
    (isMmio l.params 0 = false → isMmio l.params 1 = false →
      decode l.params.haltIgnoresUnused (l.mem.read 1 ++ l.mem.read 0 : Halfword) = .ok i →
      step (State.launch l) = exec i (State.launch l))

/-- The machine after reset has its memory and its set of written addresses in canonical form. A
statement about the model's representation (log 3). -/
def Obligations.ResetHasInvariant : Prop := State.reset.Inv

/-- Every step keeps memory and the set of written addresses in canonical form: addresses strictly
rising and inside the 2^16 bytes (20_memory.md section 1), nothing listed that an unlisted address
reads as. A statement about the model's representation (log 3). -/
def Obligations.StepKeepsInvariant : Prop :=
  ∀ s t : State, s.Inv → step s = .next t → t.Inv

/-- Over any safe run from any state: a byte that no store of the run or before it has written reads
as at the start (the spec's decisions D12 and D13, 92_eei_decisions.md), the set of written addresses
only grows (D14), device accesses are only added at the end, in program order (D13), and the launch's
parameters never change. THE MODEL'S CHOICES in it: that the parameters stand in the state and no step
changes them is log 4; that the written set is kept under both values of `SMC_POLICY` and takes in
device stores is log 13. -/
def Obligations.RunKeepsUnwrittenBytes : Prop :=
  ∀ (k : Nat) (s t : State), RunsTo k s t →
    (∀ a : Nat, a ∉ t.written → t.mem.read a = s.mem.read a) ∧
    (∀ a : Nat, a ∈ s.written → a ∈ t.written) ∧
    s.deviceEvents <+: t.deviceEvents ∧ t.params = s.params

/-- Under `SMC_POLICY = fault` (the spec's decision D14, 92_eei_decisions.md) every word a run from a
launch fetches is a word of the launch's memory: no program runs code it has stored. That the policy
stays the launch's through the run is log 4. -/
def Obligations.RunExecutesLaunchImage : Prop :=
  ∀ (l : Launch) (k : Nat) (t : State) (w : Halfword), l.params.smc = .fault →
    RunsTo k (State.launch l) t → fetch t = .next w →
    w = (l.mem.read (t.pc + 1).toNat ++ l.mem.read t.pc.toNat : Halfword)

/-! ### Data processing -/

/-- R80: `ADD`(1), for any of R0 to R15, the PC as source (the address of the `ADD`) and as
destination (a jump) among them. Completion, result, flags and frame. -/
def Obligations.AddRegisters : Prop :=
  ∀ (rd rs : Reg) (s : State),
    (rd ≠ regPC → s.CanAdvance → ∃ t, exec (.add1 rd rs) s = .next t ∧
      t.readReg rd = s.readReg rd + s.readReg rs ∧ t.pc = s.pc + 2 ∧
      FlagsOfSum (s.readReg rd) (s.readReg rs) t.flags ∧
      KeepsRegsBut rd s t ∧ KeepsMemory s t ∧ KeepsRest s t) ∧
    (rd = regPC → ∃ t, exec (.add1 rd rs) s = .next t ∧
      t.pc = s.pc + s.readReg rs ∧ FlagsOfSum s.pc (s.readReg rs) t.flags ∧
      KeepsRegs s t ∧ KeepsMemory s t ∧ KeepsRest s t)

/-- R81: `ADD`(2), when the sum does not leave 0..65535 or the policy is to wrap; the result is a
multiple of 4. The other policy is `AddressOverflowFaults`. -/
def Obligations.AddPCRelative : Prop :=
  ∀ (rd : LowReg) (imm8 : BitVec 8) (s : State), s.CanAdvance →
    (s.params.wrap = .wrap ∨ (s.pc &&& 0xFFFC).toNat + 4 * imm8.toNat ≤ 65535) →
    ∃ t, exec (.add2 rd imm8) s = .next t ∧
      t.readLow rd = (s.pc &&& 0xFFFC) + BitVec.ofNat 16 (4 * imm8.toNat) ∧
      (t.readLow rd).toNat % 4 = 0 ∧ t.pc = s.pc + 2 ∧ t.flags = s.flags ∧
      KeepsRegsBut rd.toReg s t ∧ KeepsMemory s t ∧ KeepsRest s t

/-- R82 and R87: `AND` and `EOR` write the bitwise result and set N and Z from it. -/
def Obligations.BitwiseAndExclusiveOr : Prop :=
  ∀ (rd rs : LowReg) (s : State), s.CanAdvance →
    (∃ t, exec (.and rd rs) s = .next t ∧
      t.readLow rd = s.readLow rd &&& s.readLow rs ∧ t.pc = s.pc + 2 ∧
      FlagsNZOf (s.readLow rd &&& s.readLow rs) s.flags t.flags ∧
      KeepsRegsBut rd.toReg s t ∧ KeepsMemory s t ∧ KeepsRest s t) ∧
    (∃ t, exec (.eor rd rs) s = .next t ∧
      t.readLow rd = s.readLow rd ^^^ s.readLow rs ∧ t.pc = s.pc + 2 ∧
      FlagsNZOf (s.readLow rd ^^^ s.readLow rs) s.flags t.flags ∧
      KeepsRegsBut rd.toReg s t ∧ KeepsMemory s t ∧ KeepsRest s t)

/-- R83: `ASR` by the low byte of Rs, bit by bit, for a shift of 0, of 1 to 15 and of 16 or more. -/
def Obligations.ArithmeticShiftRight : Prop :=
  ∀ (rd rs : LowReg) (s : State) (n : Nat), s.CanAdvance → n = (s.readLow rs).toNat % 256 →
    ∃ t, exec (.asr rd rs) s = .next t ∧ t.pc = s.pc + 2 ∧
      (n = 0 → t.readLow rd = s.readLow rd ∧ t.flags.c = s.flags.c) ∧
      (1 ≤ n → n ≤ 15 →
        (∀ i < 16, (t.readLow rd).getLsbD i =
          if i + n ≤ 15 then (s.readLow rd).getLsbD (i + n) else (s.readLow rd).getLsbD 15) ∧
        t.flags.c = (s.readLow rd).getLsbD (n - 1)) ∧
      (16 ≤ n →
        t.readLow rd = (if (s.readLow rd).getLsbD 15 = true then 0xFFFF else 0x0000) ∧
        t.flags.c = (s.readLow rd).getLsbD 15) ∧
      t.flags.n = (t.readLow rd).getLsbD 15 ∧ (t.flags.z = true ↔ t.readLow rd = 0) ∧
      t.flags.v = s.flags.v ∧ KeepsRegsBut rd.toReg s t ∧ KeepsMemory s t ∧ KeepsRest s t

/-- R84 and R85: `CMP`(1) and `CMP`(2) set the four flags from the difference and write no
register. -/
def Obligations.CompareLowRegisters : Prop :=
  ∀ (rd rs : LowReg) (imm8 : BitVec 8) (s : State), s.CanAdvance →
    (∃ t, exec (.cmp1 rd imm8) s = .next t ∧ t.pc = s.pc + 2 ∧
      FlagsOfDifference (s.readLow rd) (BitVec.ofNat 16 imm8.toNat) t.flags ∧
      KeepsRegs s t ∧ KeepsMemory s t ∧ KeepsRest s t) ∧
    (∃ t, exec (.cmp2 rd rs) s = .next t ∧ t.pc = s.pc + 2 ∧
      FlagsOfDifference (s.readLow rd) (s.readLow rs) t.flags ∧
      KeepsRegs s t ∧ KeepsMemory s t ∧ KeepsRest s t)

/-- R86: `CMP`(3), both its rows, with at least one register from R8 to R15; the PC is read as the
address of the `CMP` and never written. -/
def Obligations.CompareHighRegisters : Prop :=
  ∀ s : State, s.CanAdvance →
    (∀ rd rs : Reg, (8 ≤ rd.val ∨ 8 ≤ rs.val) →
      ∃ t, exec (.cmp3High rd rs) s = .next t ∧ t.pc = s.pc + 2 ∧
        FlagsOfDifference (s.readReg rd) (s.readReg rs) t.flags ∧
        KeepsRegs s t ∧ KeepsMemory s t ∧ KeepsRest s t) ∧
    (∀ (rd : LowReg) (rs : Reg), 8 ≤ rs.val →
      ∃ t, exec (.cmp3Low rd rs) s = .next t ∧ t.pc = s.pc + 2 ∧
        FlagsOfDifference (s.readReg rd.toReg) (s.readReg rs) t.flags ∧
        KeepsRegs s t ∧ KeepsMemory s t ∧ KeepsRest s t)

/-- The spec's decision D3 (92_eei_decisions.md): `CMP`(3) of two low registers is an unassigned
encoding. No word decodes to such a term; its meaning faults all the same (log 18). -/
def Obligations.CompareHighOfLowRegistersFaults : Prop :=
  ∀ (rd rs : Reg) (s : State), rd.val < 8 → rs.val < 8 →
    exec (.cmp3High rd rs) s = .fault .unassignedEncoding ∧
    ∀ q : LowReg, exec (.cmp3Low q rs) s = .fault .unassignedEncoding

/-- R88: `MOV`(1). N is 0. -/
def Obligations.MoveImmediate : Prop :=
  ∀ (rd : LowReg) (imm8 : BitVec 8) (s : State), s.CanAdvance →
    ∃ t, exec (.mov1 rd imm8) s = .next t ∧
      t.readLow rd = BitVec.ofNat 16 imm8.toNat ∧ t.pc = s.pc + 2 ∧
      t.flags.n = false ∧ (t.flags.z = true ↔ imm8 = 0) ∧
      t.flags.c = s.flags.c ∧ t.flags.v = s.flags.v ∧
      KeepsRegsBut rd.toReg s t ∧ KeepsMemory s t ∧ KeepsRest s t

/-- R89: `MOV`(2), for any of R0 to R15, the PC as source and as destination among them. -/
def Obligations.MoveRegister : Prop :=
  ∀ (rd rs : Reg) (s : State),
    (rd ≠ regPC → s.CanAdvance → ∃ t, exec (.mov2 rd rs) s = .next t ∧
      t.readReg rd = s.readReg rs ∧ t.pc = s.pc + 2 ∧
      FlagsNZOf (s.readReg rs) s.flags t.flags ∧
      KeepsRegsBut rd s t ∧ KeepsMemory s t ∧ KeepsRest s t) ∧
    (rd = regPC → ∃ t, exec (.mov2 rd rs) s = .next t ∧
      t.pc = s.readReg rs ∧ FlagsNZOf (s.readReg rs) s.flags t.flags ∧
      KeepsRegs s t ∧ KeepsMemory s t ∧ KeepsRest s t)

/-- R90: `NEG` is the subtraction `0 - Rs`; C is set only for 0, V only for 0x8000. -/
def Obligations.NegateRegister : Prop :=
  ∀ (rd rs : LowReg) (s : State), s.CanAdvance →
    ∃ t, exec (.neg rd rs) s = .next t ∧
      t.readLow rd = 0 - s.readLow rs ∧ t.pc = s.pc + 2 ∧
      FlagsOfDifference 0 (s.readLow rs) t.flags ∧
      (t.flags.c = true ↔ s.readLow rs = 0) ∧ (t.flags.v = true ↔ s.readLow rs = 0x8000) ∧
      KeepsRegsBut rd.toReg s t ∧ KeepsMemory s t ∧ KeepsRest s t

/-- R91: `TST` sets N and Z from the bitwise AND and writes no register. -/
def Obligations.TestBits : Prop :=
  ∀ (rd rs : LowReg) (s : State), s.CanAdvance →
    ∃ t, exec (.tst rd rs) s = .next t ∧ t.pc = s.pc + 2 ∧
      FlagsNZOf (s.readLow rd &&& s.readLow rs) s.flags t.flags ∧
      KeepsRegs s t ∧ KeepsMemory s t ∧ KeepsRest s t

/-! ### Loads and stores -/

/-- R104: the one addressing mode, base plus offset modulo 65536, with the offsets of `LDR` and `STR`
(four times Imm5) and of `LDRB` and `STRB` (Imm5), when the sum stays within 0..65535 or the policy
is to wrap (the other policy is `AddressOverflowFaults`). The base register is never modified: it
keeps its value unless a load names it as its destination too. -/
def Obligations.EffectiveAddressIsBasePlusOffset : Prop :=
  ∀ (s : State) (rd rb : LowReg) (imm5 : BitVec 5),
    (s.params.wrap = .wrap ∨ (s.readLow rb).toNat + 4 * imm5.toNat ≤ 65535 →
      effectiveAddress s rb (halfwordOffset imm5) =
        .next (s.readLow rb + BitVec.ofNat 16 (4 * imm5.toNat))) ∧
    (s.params.wrap = .wrap ∨ (s.readLow rb).toNat + imm5.toNat ≤ 65535 →
      effectiveAddress s rb (byteOffset imm5) =
        .next (s.readLow rb + BitVec.ofNat 16 imm5.toNat)) ∧
    (∀ t, exec (.str rd rb imm5) s = .next t → t.readLow rb = s.readLow rb) ∧
    (∀ t, exec (.strb rd rb imm5) s = .next t → t.readLow rb = s.readLow rb) ∧
    (∀ t, exec (.ldr rd rb imm5) s = .next t → rd ≠ rb → t.readLow rb = s.readLow rb) ∧
    (∀ t, exec (.ldrb rd rb imm5) s = .next t → rd ≠ rb → t.readLow rb = s.readLow rb)

/-- `LDR` at an address divisible by 4 outside the I/O region (41_load_store.md, `LDR`): the halfword,
low byte at the address. Nothing is stored. -/
def Obligations.LoadAlignedHalfword : Prop :=
  ∀ (rd rb : LowReg) (imm5 : BitVec 5) (s : State) (a : Halfword), s.CanAdvance →
    effectiveAddress s rb (halfwordOffset imm5) = .next a → a.toNat % 4 = 0 →
    isMmio s.params a = false → isMmio s.params (a + 1) = false →
    ∃ t, exec (.ldr rd rb imm5) s = .next t ∧
      t.readLow rd = (s.mem.read (a + 1).toNat ++ s.mem.read a.toNat : Halfword) ∧
      t.pc = s.pc + 2 ∧ t.flags = s.flags ∧
      KeepsRegsBut rd.toReg s t ∧ KeepsMemory s t ∧ KeepsRest s t

/-- `LDR` at an address not divisible by 4: the spec's decision D5 (92_eei_decisions.md). Under `draw`,
outside the I/O region, the loaded data is a free value (log 6), whatever the counter of free values
is. Under `fault` it is a model fault wherever the address and the PC are; that it comes before the
refusal at the region's edge and before the fall-through is log 14. -/
def Obligations.LoadMisalignedHalfword : Prop :=
  ∀ (rd rb : LowReg) (imm5 : BitVec 5) (s : State) (a : Halfword),
    effectiveAddress s rb (halfwordOffset imm5) = .next a → a.toNat % 4 ≠ 0 →
    (s.params.misaligned = .draw → s.CanAdvance →
      isMmio s.params a = false → isMmio s.params (a + 1) = false →
      ∃ t, exec (.ldr rd rb imm5) s = .next t ∧
        t.readLow rd = Config.misalignedLoad s.draws a ∧ t.draws = s.draws + 1 ∧
        t.pc = s.pc + 2 ∧ t.flags = s.flags ∧ KeepsRegsBut rd.toReg s t ∧ KeepsMemory s t ∧
        t.halted = s.halted ∧ t.params = s.params ∧ t.deviceEvents = s.deviceEvents ∧
        t.written = s.written) ∧
    (s.params.misaligned = .fault → exec (.ldr rd rb imm5) s = .fault .unpredictableAccess)

/-- `LDRB` at any address (41_load_store.md, `LDRB`): one byte, zero-extended. Outside the I/O region
it is the byte in memory. Inside, it is the byte the device answers, and the device sees one access:
the spec's decision D11 (92_eei_decisions.md), in the form of log 8. -/
def Obligations.LoadByteZeroExtends : Prop :=
  ∀ (rd rb : LowReg) (imm5 : BitVec 5) (s : State) (a : Halfword), s.CanAdvance →
    effectiveAddress s rb (byteOffset imm5) = .next a →
    a = s.readLow rb + BitVec.ofNat 16 imm5.toNat ∧
    ∃ (t : State) (v : Byte), exec (.ldrb rd rb imm5) s = .next t ∧
      (t.readLow rd).toNat = v.toNat ∧
      (isMmio s.params a = false → v = s.mem.read a.toNat ∧ KeepsRest s t) ∧
      (isMmio s.params a = true → t.deviceEvents = s.deviceEvents ++ [.loadByte a v] ∧
        t.written = s.written ∧ t.halted = s.halted ∧ t.params = s.params) ∧
      t.pc = s.pc + 2 ∧ t.flags = s.flags ∧ KeepsRegsBut rd.toReg s t ∧ KeepsMemory s t

/-- `STR` at an address divisible by 4 outside the I/O region (41_load_store.md, `STR`): the low byte
at the address, the high byte at the next, every other byte as before. That the two addresses enter
the written set is the spec's decision D14 (92_eei_decisions.md) under `SMC_POLICY = fault`, and under
`coherent` the model's choice (log 13). -/
def Obligations.StoreAlignedHalfword : Prop :=
  ∀ (rd rb : LowReg) (imm5 : BitVec 5) (s : State) (a : Halfword), s.CanAdvance →
    effectiveAddress s rb (halfwordOffset imm5) = .next a → a.toNat % 4 = 0 →
    isMmio s.params a = false → isMmio s.params (a + 1) = false →
    ∃ t, exec (.str rd rb imm5) s = .next t ∧
      t.mem.read a.toNat = (s.readLow rd).extractLsb' 0 8 ∧
      t.mem.read (a + 1).toNat = (s.readLow rd).extractLsb' 8 8 ∧
      (∀ b : Nat, b ≠ a.toNat → b ≠ (a + 1).toNat → t.mem.read b = s.mem.read b) ∧
      (∀ b : Nat, b ∈ t.written ↔ b = a.toNat ∨ b = (a + 1).toNat ∨ b ∈ s.written) ∧
      t.pc = s.pc + 2 ∧ t.flags = s.flags ∧ KeepsRegs s t ∧
      t.halted = s.halted ∧ t.params = s.params ∧ t.deviceEvents = s.deviceEvents ∧
      t.draws = s.draws

/-- `STR` at an address not divisible by 4: the spec's decision D5 (92_eei_decisions.md). Under `draw`,
outside the I/O region, the two bytes are free values (log 6), whatever the counter is, and every other
byte is as before; the two addresses enter the written set (D14; under `SMC_POLICY = coherent` that
the set is kept at all is the model's choice, log 13). Under `fault` it is a model fault wherever the
address and the PC are; that it comes before the refusal at the region's edge and before the
fall-through is log 14. -/
def Obligations.StoreMisalignedHalfword : Prop :=
  ∀ (rd rb : LowReg) (imm5 : BitVec 5) (s : State) (a : Halfword),
    effectiveAddress s rb (halfwordOffset imm5) = .next a → a.toNat % 4 ≠ 0 →
    (s.params.misaligned = .draw → s.CanAdvance →
      isMmio s.params a = false → isMmio s.params (a + 1) = false →
      ∃ t, exec (.str rd rb imm5) s = .next t ∧
        (t.mem.read (a + 1).toNat ++ t.mem.read a.toNat : Halfword) =
          Config.misalignedStore s.draws a (s.readLow rd) ∧ t.draws = s.draws + 1 ∧
        (∀ b : Nat, b ≠ a.toNat → b ≠ (a + 1).toNat → t.mem.read b = s.mem.read b) ∧
        (∀ b : Nat, b ∈ t.written ↔ b = a.toNat ∨ b = (a + 1).toNat ∨ b ∈ s.written) ∧
        t.pc = s.pc + 2 ∧ t.flags = s.flags ∧ KeepsRegs s t ∧
        t.halted = s.halted ∧ t.params = s.params ∧ t.deviceEvents = s.deviceEvents) ∧
    (s.params.misaligned = .fault → exec (.str rd rb imm5) s = .fault .unpredictableAccess)

/-- `STRB` at any address (41_load_store.md, `STRB`): bits 7 to 0 of the register, one byte. Outside
the I/O region that byte of memory changes and no other; inside, the device receives it and memory is
unchanged (the spec's decision D11, 92_eei_decisions.md, in the form of log 8). That the address enters
the written set is D14, and under `SMC_POLICY = coherent` or for a device store the model's choice
(log 13). -/
def Obligations.StoreByteWritesOneByte : Prop :=
  ∀ (rd rb : LowReg) (imm5 : BitVec 5) (s : State) (a : Halfword), s.CanAdvance →
    effectiveAddress s rb (byteOffset imm5) = .next a →
    a = s.readLow rb + BitVec.ofNat 16 imm5.toNat ∧
    ∃ t, exec (.strb rd rb imm5) s = .next t ∧
      (isMmio s.params a = false →
        t.mem.read a.toNat = (s.readLow rd).extractLsb' 0 8 ∧ t.deviceEvents = s.deviceEvents) ∧
      (isMmio s.params a = true →
        KeepsMemory s t ∧
        t.deviceEvents = s.deviceEvents ++ [.storeByte a ((s.readLow rd).extractLsb' 0 8)]) ∧
      (∀ b : Nat, b ≠ a.toNat → t.mem.read b = s.mem.read b) ∧
      (∀ b : Nat, b ∈ t.written ↔ b = a.toNat ∨ b ∈ s.written) ∧
      t.pc = s.pc + 2 ∧ t.flags = s.flags ∧ KeepsRegs s t ∧
      t.halted = s.halted ∧ t.params = s.params ∧ t.draws = s.draws

/-- The byte order, fixed (20_memory.md section 2). After `STR` to an address divisible by 4 outside
the I/O region, bits 7 to 0 are in the byte at the address and bits 15 to 8 in the byte after it,
`LDRB` at each of the two addresses reads them back zero-extended, and `LDR` reads the halfword back. A
fetched halfword, at any even address, has its bits 7 to 0 in the byte at the address and its bits
15 to 8 in the byte after it; that "the same little-endian rule applies to fetch" the spec derives. -/
def Obligations.HalfwordsAreLittleEndian : Prop :=
  (∀ (rd rx rb : LowReg) (s t : State) (a : Halfword), exec (.str rd rb 0) s = .next t →
    a = s.readLow rb → a.toNat % 4 = 0 →
    isMmio s.params a = false → isMmio s.params (a + 1) = false →
    t.mem.read a.toNat = (s.readLow rd).extractLsb' 0 8 ∧
    t.mem.read (a + 1).toNat = (s.readLow rd).extractLsb' 8 8 ∧
    (∀ u, exec (.ldrb rx rb 0) t = .next u →
      u.readLow rx = BitVec.ofNat 16 ((s.readLow rd).toNat % 256)) ∧
    (∀ u, exec (.ldrb rx rb 1) t = .next u →
      u.readLow rx = BitVec.ofNat 16 ((s.readLow rd).toNat / 256)) ∧
    (∀ u, exec (.ldr rx rb 0) t = .next u → u.readLow rx = s.readLow rd)) ∧
  ∀ (s : State) (w : Halfword), fetch s = .next w →
    w.extractLsb' 0 8 = s.mem.read s.pc.toNat ∧ w.extractLsb' 8 8 = s.mem.read (s.pc + 1).toNat

/-- The spec's decision D7 (92_eei_decisions.md): under `WRAP_POLICY = fault` an effective address, an
`ADD`(2) result or a taken branch's target outside 0..65535 is a model fault. -/
def Obligations.AddressOverflowFaults : Prop :=
  ∀ (s : State) (rd rb : LowReg) (imm5 : BitVec 5) (imm8 : BitVec 8) (c : Cond),
    s.params.wrap = .fault →
    (65535 < (s.readLow rb).toNat + 4 * imm5.toNat →
      exec (.ldr rd rb imm5) s = .fault .addressWrap ∧
      exec (.str rd rb imm5) s = .fault .addressWrap) ∧
    (65535 < (s.readLow rb).toNat + imm5.toNat →
      exec (.ldrb rd rb imm5) s = .fault .addressWrap ∧
      exec (.strb rd rb imm5) s = .fault .addressWrap) ∧
    (65535 < (s.pc &&& 0xFFFC).toNat + 4 * imm8.toNat →
      exec (.add2 rd imm8) s = .fault .addressWrap) ∧
    (conditionPassed c s.flags = true →
      ((s.pc.toNat : Int) + 2 * imm8.toInt < 0 ∨ 65535 < (s.pc.toNat : Int) + 2 * imm8.toInt) →
      exec (branchOf c imm8) s = .fault .addressWrap)

/-- The spec's decision D11 (92_eei_decisions.md) in the form of log 8, halfword loads: an aligned
`LDR` in the I/O region delivers a value the device chose and presents it one access; memory is
unchanged. Byte loads are in `LoadByteZeroExtends`. -/
def Obligations.DeviceAnswersHalfwordLoads : Prop :=
  ∀ (rd rb : LowReg) (imm5 : BitVec 5) (s : State) (a : Halfword), s.CanAdvance →
    effectiveAddress s rb (halfwordOffset imm5) = .next a → a.toNat % 4 = 0 →
    isMmio s.params a = true → isMmio s.params (a + 1) = true →
    ∃ t v, exec (.ldr rd rb imm5) s = .next t ∧ t.readLow rd = v ∧
      t.deviceEvents = s.deviceEvents ++ [.loadHalfword a v] ∧ t.pc = s.pc + 2 ∧
      t.flags = s.flags ∧ KeepsRegsBut rd.toReg s t ∧ KeepsMemory s t ∧
      t.written = s.written ∧ t.halted = s.halted ∧ t.params = s.params

/-- The spec's decisions D11 and D18 (92_eei_decisions.md) in the form of log 8, halfword stores: an
aligned `STR` in the I/O region hands its value to the device as one access and leaves memory
unchanged. THE MODEL'S CHOICE in it (log 13): the two addresses enter the written set. Byte stores are
in `StoreByteWritesOneByte`. -/
def Obligations.DeviceReceivesHalfwordStores : Prop :=
  ∀ (rd rb : LowReg) (imm5 : BitVec 5) (s : State) (a : Halfword), s.CanAdvance →
    effectiveAddress s rb (halfwordOffset imm5) = .next a → a.toNat % 4 = 0 →
    isMmio s.params a = true → isMmio s.params (a + 1) = true →
    ∃ t, exec (.str rd rb imm5) s = .next t ∧
      t.deviceEvents = s.deviceEvents ++ [.storeHalfword a (s.readLow rd)] ∧
      (∀ b : Nat, b ∈ t.written ↔ b = a.toNat ∨ b = (a + 1).toNat ∨ b ∈ s.written) ∧
      t.pc = s.pc + 2 ∧ t.flags = s.flags ∧ KeepsRegs s t ∧ KeepsMemory s t ∧
      t.draws = s.draws ∧ t.halted = s.halted ∧ t.params = s.params

/-- THE MODEL'S CHOICE (log 15): under `MISALIGNED_POLICY = draw` a misaligned `LDR` or `STR` with
both bytes in the I/O region reaches the device as one access; the data is a free value (log 6), memory
is unchanged. The access is recorded in the form of log 8. -/
def Obligations.MisalignedDeviceAccess : Prop :=
  ∀ (rd rb : LowReg) (imm5 : BitVec 5) (s : State) (a : Halfword), s.CanAdvance →
    effectiveAddress s rb (halfwordOffset imm5) = .next a → a.toNat % 4 ≠ 0 →
    s.params.misaligned = .draw →
    isMmio s.params a = true → isMmio s.params (a + 1) = true →
    (∃ t v, exec (.ldr rd rb imm5) s = .next t ∧
      t.readLow rd = Config.misalignedLoad (s.draws + 1) a ∧
      t.deviceEvents = s.deviceEvents ++ [.loadHalfword a v] ∧ t.pc = s.pc + 2 ∧
      t.flags = s.flags ∧ KeepsRegsBut rd.toReg s t ∧ KeepsMemory s t ∧
      t.written = s.written ∧ t.halted = s.halted ∧ t.params = s.params) ∧
    (∃ t, exec (.str rd rb imm5) s = .next t ∧
      t.deviceEvents = s.deviceEvents ++
        [.storeHalfword a (Config.misalignedStore s.draws a (s.readLow rd))] ∧
      t.pc = s.pc + 2 ∧ t.flags = s.flags ∧ KeepsRegs s t ∧ KeepsMemory s t ∧
      t.halted = s.halted ∧ t.params = s.params)

/-- The treatment of I18 (93_implementation_defined.md; log 9): a halfword access with one byte in the
I/O region and one outside is refused, unless the policy on misaligned accesses stops it first
(log 14). -/
def Obligations.RegionEdgeIsRefused : Prop :=
  ∀ (rd rb : LowReg) (imm5 : BitVec 5) (s : State) (a : Halfword),
    effectiveAddress s rb (halfwordOffset imm5) = .next a →
    (a.toNat % 4 = 0 ∨ s.params.misaligned = .draw) →
    isMmio s.params a ≠ isMmio s.params (a + 1) →
    exec (.ldr rd rb imm5) s = .refused .mmioStraddle ∧
    exec (.str rd rb imm5) s = .refused .mmioStraddle

/-! ### Branches -/

/-- R110: the fourteen branches. Taken, the target is the branch's own address plus twice the signed
offset, modulo 65536 (when it stays within 0..65535 or the policy is to wrap; the other policy is
`AddressOverflowFaults`); not taken, the PC advances. Nothing else changes. -/
def Obligations.ConditionalBranch : Prop :=
  ∀ (c : Cond) (offset8 : BitVec 8) (s : State),
    (conditionPassed c s.flags = true →
      (s.params.wrap = .wrap ∨ (0 ≤ (s.pc.toNat : Int) + 2 * offset8.toInt ∧
        (s.pc.toNat : Int) + 2 * offset8.toInt ≤ 65535)) →
      ∃ t, exec (branchOf c offset8) s = .next t ∧
        t.pc = s.pc + BitVec.ofInt 16 (2 * offset8.toInt) ∧
        t.flags = s.flags ∧ KeepsRegs s t ∧ KeepsMemory s t ∧ KeepsRest s t) ∧
    (conditionPassed c s.flags = false → s.CanAdvance →
      ∃ t, exec (branchOf c offset8) s = .next t ∧ t.pc = s.pc + 2 ∧
        t.flags = s.flags ∧ KeepsRegs s t ∧ KeepsMemory s t ∧ KeepsRest s t)

/-- The condition table of 42_branch.md; the "or" of `ls` and `le` is the spec's own restoration
(91_not_in_source.md N4, log 20). -/
def Obligations.ConditionTable : Prop :=
  ∀ f : Flags,
    (conditionPassed .eq f = true ↔ f.z = true) ∧ (conditionPassed .ne f = true ↔ f.z = false) ∧
    (conditionPassed .cs f = true ↔ f.c = true) ∧ (conditionPassed .cc f = true ↔ f.c = false) ∧
    (conditionPassed .mi f = true ↔ f.n = true) ∧ (conditionPassed .pl f = true ↔ f.n = false) ∧
    (conditionPassed .vs f = true ↔ f.v = true) ∧ (conditionPassed .vc f = true ↔ f.v = false) ∧
    (conditionPassed .hi f = true ↔ f.c = true ∧ f.z = false) ∧
    (conditionPassed .ls f = true ↔ f.c = false ∨ f.z = true) ∧
    (conditionPassed .ge f = true ↔ f.n = f.v) ∧ (conditionPassed .lt f = true ↔ f.n ≠ f.v) ∧
    (conditionPassed .gt f = true ↔ f.z = false ∧ f.n = f.v) ∧
    (conditionPassed .le f = true ↔ f.z = true ∨ f.n ≠ f.v)

/-- After a compare of any form the conditions mean the order of the two values, unsigned and signed:
the closing paragraph of the condition rule in 42_branch.md, which the spec derives. -/
def Obligations.BranchesAfterCompare : Prop :=
  ∀ (i : Instr) (s t : State) (a b : Halfword), exec i s = .next t →
    ((∃ rd imm8, i = .cmp1 rd imm8 ∧ a = s.readLow rd ∧ b = BitVec.setWidth 16 imm8) ∨
      (∃ rd rs, i = .cmp2 rd rs ∧ a = s.readLow rd ∧ b = s.readLow rs) ∨
      (∃ rd rs, i = .cmp3High rd rs ∧ a = s.readReg rd ∧ b = s.readReg rs) ∨
      (∃ rd rs, i = .cmp3Low rd rs ∧ a = s.readLow rd ∧ b = s.readReg rs)) →
    (conditionPassed .eq t.flags = true ↔ a = b) ∧
    (conditionPassed .ne t.flags = true ↔ a ≠ b) ∧
    (conditionPassed .cs t.flags = true ↔ b.toNat ≤ a.toNat) ∧
    (conditionPassed .cc t.flags = true ↔ a.toNat < b.toNat) ∧
    (conditionPassed .hi t.flags = true ↔ b.toNat < a.toNat) ∧
    (conditionPassed .ls t.flags = true ↔ a.toNat ≤ b.toNat) ∧
    (conditionPassed .ge t.flags = true ↔ b.toInt ≤ a.toInt) ∧
    (conditionPassed .lt t.flags = true ↔ a.toInt < b.toInt) ∧
    (conditionPassed .gt t.flags = true ↔ b.toInt < a.toInt) ∧
    (conditionPassed .le t.flags = true ↔ a.toInt ≤ b.toInt)

/-! ### `HALT` -/

/-- R120: `HALT` halts the machine, at any PC, and writes no register, flag or byte of memory; nothing
is fetched or executed after it. The PC is not spoken of (93_implementation_defined.md I15). -/
def Obligations.HaltStopsTheMachine : Prop :=
  ∀ s : State, ∃ t, exec .halt s = .next t ∧ t.halted = true ∧ t.flags = s.flags ∧
    KeepsRegs s t ∧ KeepsMemory s t ∧ t.params = s.params ∧ t.deviceEvents = s.deviceEvents ∧
    t.written = s.written ∧ t.draws = s.draws ∧ ∀ u, step t ≠ .next u

/-- `HALT` is the only way a program stops (43_miscellaneous.md, "End of a run", which the spec
derives): a step that halts the machine has fetched a word that decodes to `HALT`. -/
def Obligations.OnlyHaltHalts : Prop :=
  ∀ s t : State, step s = .next t → t.halted = true →
    ∃ w, fetch s = .next w ∧ decode s.params.haltIgnoresUnused w = .ok .halt

/-! ### The top of the address space -/

/-- The spec's decision D8 (92_eei_decisions.md): under `PC_FALLTHROUGH_POLICY = fault` an instruction
at 0xFFFE gives a next state only if it is `HALT` or writes the PC. -/
def Obligations.TopOfAddressSpace : Prop :=
  ∀ (i : Instr) (s t : State), s.pc = 0xFFFE → s.params.fallThrough = .fault →
    exec i s = .next t → i = .halt ∨ writesPC i s = true

/-- The spec's decision D8 (92_eei_decisions.md) and log 11: the fault stands in place of the advance
only. The state it carries is the completed one, its PC still 0xFFFE; under the policy `wrap` the same
instruction reaches that state with the PC at 0. This compares two executions of one instruction from
states equal but for the policy, and so takes their free data and their devices' answers to be equal:
that is the model's choice (logs 6 and 8), unsafe of hardware that draws anew. -/
def Obligations.FallThroughFaultIsComplete : Prop :=
  ∀ (i : Instr) (s c : State), exec i s = .fault (.pcFallThrough c) →
    s.pc = 0xFFFE ∧ s.params.fallThrough = .fault ∧ c.pc = 0xFFFE ∧
    exec i (s.setParams { s.params with fallThrough := .wrap }) =
      .next ((c.setParams { s.params with fallThrough := .wrap }).setPc 0)

/-! ### Arithmetic laws -/

/-- The addition law and its bit formula for overflow (40_data_processing.md section 1; the formula is
derived there). -/
def Obligations.AdditionLaw : Prop :=
  ∀ a b : Halfword,
    (addWithFlags a b).result.toNat = (a.toNat + b.toNat) % 65536 ∧
    ((addWithFlags a b).carry = true ↔ 65536 ≤ a.toNat + b.toNat) ∧
    ((addWithFlags a b).overflow = true ↔
      a.toInt + b.toInt < -32768 ∨ 32767 < a.toInt + b.toInt) ∧
    ((addWithFlags a b).overflow = true ↔
      a.getLsbD 15 = b.getLsbD 15 ∧ (addWithFlags a b).result.getLsbD 15 ≠ a.getLsbD 15)

/-- The subtraction law, as the 17-bit addition `u(a) + u(NOT b) + 1`, and its bit formula for
overflow (40_data_processing.md section 1; both are derived there). -/
def Obligations.SubtractionLaw : Prop :=
  ∀ a b : Halfword,
    (subWithFlags a b).result.toNat = (a.toNat + (~~~b).toNat + 1) % 65536 ∧
    ((subWithFlags a b).carry = true ↔ 65536 ≤ a.toNat + (~~~b).toNat + 1) ∧
    ((subWithFlags a b).overflow = true ↔
      a.getLsbD 15 ≠ b.getLsbD 15 ∧ (subWithFlags a b).result.getLsbD 15 ≠ a.getLsbD 15)

/-- `ASR` rounds toward minus infinity: its result is the floor of the signed value divided by the
power of 2 (40_data_processing.md, `ASR`, corner cases; 90_conflicts.md C6). `Int`'s division by a
positive number is that floor. -/
def Obligations.ShiftIsFloorDivision : Prop :=
  ∀ (v : Halfword) (n : Nat), (asrResult v n).toInt = v.toInt / 2 ^ n

/-! ### Rules of the whole machine -/

/-- The flag table (10_state.md section 4.6, which the spec derives): a flag the table does not mark
for the instruction keeps its value. -/
def Obligations.FlagTable : Prop :=
  ∀ (i : Instr) (s t : State), exec i s = .next t →
    ((flagsWritten i s).n = false → t.flags.n = s.flags.n) ∧
    ((flagsWritten i s).z = false → t.flags.z = s.flags.z) ∧
    ((flagsWritten i s).c = false → t.flags.c = s.flags.c) ∧
    ((flagsWritten i s).v = false → t.flags.v = s.flags.v)

/-- A value reaches a high register only by `ADD`(1) or `MOV`(2) with that register as destination
(10_state.md section 2, which the spec derives). -/
def Obligations.HighRegistersWrittenByFormat5Only : Prop :=
  ∀ (i : Instr) (s t : State) (r : Reg), 8 ≤ r.val → r ≠ regPC → exec i s = .next t →
    (∀ rs, i ≠ .add1 r rs) → (∀ rs, i ≠ .mov2 r rs) → t.readReg r = s.readReg r

/-- No instruction outside Format 5 reads a high register (10_state.md section 2, which the spec
derives): changing R8 to R14 before it changes nothing in its outcome but that register. This compares
two executions, and so takes the free data and the devices' answers of a load or a store to be equal in
both: that is the model's choice (logs 6 and 8), unsafe of hardware that draws anew. -/
def Obligations.HighRegistersInvisible : Prop :=
  ∀ (i : Instr) (s : State) (r : Reg) (v : Halfword), 8 ≤ r.val → r ≠ regPC →
    isFormat5 i = false →
    exec i (s.writeReg r v) = mapOutcome (fun t => t.writeReg r v) (exec i s)

/-- The normal advance (10_state.md section 3): an instruction that does not write the PC explicitly,
and is not `HALT` (whose PC is the model's bookkeeping, log 12), ends with the PC two higher, and an
even PC stays even. -/
def Obligations.PCAdvancesByTwo : Prop :=
  ∀ (i : Instr) (s t : State), exec i s = .next t → i ≠ .halt → writesPC i s = false →
    t.pc = s.pc + 2 ∧ (s.pc.toNat % 2 = 0 → t.pc.toNat % 2 = 0)

/-- An odd PC arises only from `ADD`(1) or `MOV`(2) writing R15 (10_state.md section 3 and 42_branch.md,
"Target alignment", which the spec derives). -/
def Obligations.OddPCOnlyFromFormat5 : Prop :=
  ∀ (i : Instr) (s t : State), s.pc.toNat % 2 = 0 → exec i s = .next t → t.pc.toNat % 2 = 1 →
    (∃ rs, i = .add1 regPC rs) ∨ (∃ rs, i = .mov2 regPC rs)

/-- R14: reading the PC gives the address of the instruction that reads it, the address the step
fetched it from: explicitly by `MOV`(2), `ADD`(1) and `CMP`(3) with register number 15, and implicitly
by `ADD`(2) and by a taken branch. -/
def Obligations.PCReadsOwnAddress : Prop :=
  ∀ (s t : State) (w : Halfword) (i : Instr), s.halted = false → fetch s = .next w →
    decode s.params.haltIgnoresUnused w = .ok i → step s = .next t →
    (∀ rd, i = .mov2 rd regPC → t.readReg rd = s.pc) ∧
    (∀ rd, rd ≠ regPC → i = .add1 rd regPC → t.readReg rd = s.readReg rd + s.pc) ∧
    (∀ rs, rs ≠ regPC → i = .add1 regPC rs → t.pc = s.pc + s.readReg rs) ∧
    (i = .add1 regPC regPC → t.pc = s.pc + s.pc) ∧
    (∀ rd, i = .cmp3High rd regPC ∧ rd ≠ regPC ∨ (∃ q, i = .cmp3Low q regPC ∧ rd = q.toReg) →
      FlagsOfDifference (s.readReg rd) s.pc t.flags) ∧
    (∀ rs, rs ≠ regPC → i = .cmp3High regPC rs →
      FlagsOfDifference s.pc (s.readReg rs) t.flags) ∧
    (i = .cmp3High regPC regPC → FlagsOfDifference s.pc s.pc t.flags) ∧
    (∀ rd imm8, i = .add2 rd imm8 →
      t.readLow rd = (s.pc &&& 0xFFFC) + BitVec.ofNat 16 (4 * imm8.toNat)) ∧
    (∀ c offset8, i = branchOf c offset8 → conditionPassed c s.flags = true →
      t.pc = s.pc + BitVec.ofInt 16 (2 * offset8.toInt))

/-- What is not a fault (60_exceptions.md section 4, which the spec derives), in full: under the
parameters of `State.reset` (log 5) every well-formed instruction answers a next state in every state,
whatever its operands. -/
def Obligations.EveryInstructionCompletes : Prop :=
  ∀ (i : Instr) (s : State), i.WellFormed → NeverStops s.params → ∃ t, exec i s = .next t

/-- The only stops an executing well-formed instruction can reach (60_exceptions.md section 4, a
decision of the spec): the three execute-time model faults, each under its policy, and the refusal at
the edge of the I/O region, which the spec puts outside itself (D11, 93_implementation_defined.md I18)
and which the model refuses by a name of its choice (log 9). -/
def Obligations.ExecutionStopsAreNamed : Prop :=
  ∀ (i : Instr) (s : State), i.WellFormed →
    (∀ f, exec i s = .fault f →
      (f = .unpredictableAccess ∧ s.params.misaligned = .fault) ∨
      (f = .addressWrap ∧ s.params.wrap = .fault) ∨
      (∃ c, f = .pcFallThrough c ∧ s.params.fallThrough = .fault)) ∧
    (∀ r, exec i s = .refused r → r = .mmioStraddle ∧ s.params.mmioRegion ≠ [])
end

