-- ==== Sys2Proof/Laws/Memory.lean ====
section
/-! SUPPORT. Reading after writing, and the canonical forms of memory and of the set of written
addresses. -/

namespace Sys2Proof.Machine

namespace MemoryLaws

theorem read_insert_same (a : Nat) (v : Byte) (m : Memory) (h : ∀ c ∈ m, c.1 ≠ a) :
    (Memory.insert a v m).read a = v := by
  induction m with
  | nil => simp [Memory.insert, Memory.read]
  | cons c rest ih =>
    have hc := h c (by simp)
    have hr := ih fun d hd => h d (by simp [hd])
    unfold Memory.insert
    split <;> simp [Memory.read, hc, hr]

theorem read_insert_other (a b : Nat) (v : Byte) (m : Memory) (h : b ≠ a) :
    (Memory.insert a v m).read b = m.read b := by
  induction m with
  | nil => simp [Memory.insert, Memory.read, Ne.symm h]
  | cons c rest ih =>
    unfold Memory.insert
    split <;> simp [Memory.read, Ne.symm h, ih]

theorem erase_avoids (m : Memory) (a : Nat) : ∀ c ∈ m.erase a, c.1 ≠ a := by
  intro c hc
  simpa using (List.mem_filter.mp hc).2

theorem read_erase_same (m : Memory) (a : Nat) : (m.erase a).read a = Memory.unlisted a := by
  induction m with
  | nil => rfl
  | cons c rest ih =>
    by_cases hc : c.1 = a
    · simpa [Memory.erase, hc] using ih
    · simpa [Memory.erase, hc, Memory.read] using ih

theorem read_erase_other (m : Memory) (a b : Nat) (h : b ≠ a) :
    (m.erase a).read b = m.read b := by
  induction m with
  | nil => rfl
  | cons c rest ih =>
    by_cases hc : c.1 = a
    · have hb : c.1 ≠ b := by omega
      simpa [Memory.erase, hc, Memory.read, hb, Ne.symm h] using ih
    · by_cases hb : c.1 = b
      · simp [Memory.erase, Memory.read, hb, h]
      · simpa [Memory.erase, hc, Memory.read, hb] using ih

theorem mem_insert (a : Nat) (v : Byte) (m : Memory) (c : Host.Cell) :
    c ∈ Memory.insert a v m ↔ c = (a, v) ∨ c ∈ m := by
  induction m with
  | nil => simp [Memory.insert]
  | cons d rest ih =>
    unfold Memory.insert
    split
    · simp
    · simp [ih, or_left_comm]

theorem pairwise_insert (a : Nat) (v : Byte) (m : Memory) (hm : m.Pairwise (fun x y => x.1 < y.1))
    (h : ∀ c ∈ m, c.1 ≠ a) : (Memory.insert a v m).Pairwise (fun x y => x.1 < y.1) := by
  induction m with
  | nil => simp [Memory.insert]
  | cons c rest ih =>
    have hc := h c (by simp)
    rw [List.pairwise_cons] at hm
    unfold Memory.insert
    split
    · rename_i hlt
      refine List.pairwise_cons.mpr ⟨fun d hd => ?_, List.pairwise_cons.mpr hm⟩
      rcases List.mem_cons.mp hd with rfl | hd
      · exact hlt
      · exact Nat.lt_trans hlt (hm.1 d hd)
    · refine List.pairwise_cons.mpr ⟨fun d hd => ?_, ih hm.2 fun e he => h e (by simp [he])⟩
      rcases (mem_insert a v rest d).mp hd with rfl | hd
      · show c.1 < a
        omega
      · exact hm.1 d hd

end MemoryLaws

open MemoryLaws

/-- A byte written is the byte read (20_memory.md R32, R39). -/
@[simp] theorem Memory.read_write_same (m : Memory) (a : Nat) (v : Byte) :
    (m.write a v).read a = v := by
  unfold Memory.write
  split
  · rw [read_erase_same]
    symm
    assumption
  · exact read_insert_same a v _ (erase_avoids m a)

/-- A write leaves every other byte alone (20_memory.md R39). -/
theorem Memory.read_write_other (m : Memory) (a b : Nat) (v : Byte) (h : b ≠ a) :
    (m.write a v).read b = m.read b := by
  unfold Memory.write
  split
  · exact read_erase_other m a b h
  · rw [read_insert_other a b v _ h, read_erase_other m a b h]

/-- What a byte reads as after a write. -/
theorem Memory.read_write (m : Memory) (a b : Nat) (v : Byte) :
    (m.write a v).read b = if b = a then v else m.read b := by
  split
  · rename_i h
    rw [h, Memory.read_write_same]
  · rename_i h
    exact Memory.read_write_other m a b v h

/-- Writing a byte keeps the canonical form. -/
theorem Memory.wf_write (m : Memory) (a : Nat) (v : Byte) (hm : m.wf) (ha : a < 65536) :
    (m.write a v).wf := by
  have he : (m.erase a).wf :=
    ⟨List.Pairwise.filter _ hm.1, fun c hc => hm.2 c (List.mem_filter.mp hc).1⟩
  unfold Memory.write
  split
  · exact he
  · rename_i hv
    refine ⟨pairwise_insert a v _ he.1 (erase_avoids m a), fun c hc => ?_⟩
    rcases (mem_insert a v _ c).mp hc with rfl | hc
    · exact ⟨ha, hv⟩
    · exact he.2 c hc

/-- Writing a halfword keeps the canonical form. -/
theorem Memory.wf_writeHalfword (m : Memory) (a v : Halfword) (hm : m.wf) :
    (m.writeHalfword a v).wf :=
  Memory.wf_write _ _ _ (Memory.wf_write _ _ _ hm a.isLt) (a + 1).isLt

/-- The address after an address is another one. -/
theorem next_address_ne (a : Halfword) : (a + 1).toNat ≠ a.toNat := by
  have := a.isLt
  rw [BitVec.toNat_add]
  show (a.toNat + 1) % 65536 ≠ a.toNat
  omega

/-- What a byte reads as after a halfword is written: low byte at the address, high byte at the next
(20_memory.md R34). -/
theorem Memory.read_writeHalfword (m : Memory) (a v : Halfword) (b : Nat) :
    (m.writeHalfword a v).read b =
      if b = (a + 1).toNat then highByte v else if b = a.toNat then lowByte v else m.read b := by
  unfold Memory.writeHalfword
  rw [Memory.read_write, Memory.read_write]

/-- The byte at the address of a halfword written is its low byte. -/
theorem Memory.read_writeHalfword_low (m : Memory) (a v : Halfword) :
    (m.writeHalfword a v).read a.toNat = lowByte v := by
  rw [Memory.read_writeHalfword, if_neg (Ne.symm (next_address_ne a)), if_pos rfl]

/-- The byte after it is its high byte. -/
theorem Memory.read_writeHalfword_high (m : Memory) (a v : Halfword) :
    (m.writeHalfword a v).read (a + 1).toNat = highByte v := by
  rw [Memory.read_writeHalfword, if_pos rfl]

/-- Every other byte is as before. -/
theorem Memory.read_writeHalfword_other (m : Memory) (a v : Halfword) (b : Nat)
    (h0 : b ≠ a.toNat) (h1 : b ≠ (a + 1).toNat) : (m.writeHalfword a v).read b = m.read b := by
  rw [Memory.read_writeHalfword, if_neg h1, if_neg h0]

/-- A halfword is its two bytes joined. -/
@[simp] theorem joinBytes_split (h : Halfword) : joinBytes (lowByte h) (highByte h) = h := by
  apply BitVec.eq_of_getLsbD_eq
  intro i hi
  simp only [joinBytes, lowByte, highByte, BitVec.getLsbD_append, BitVec.getLsbD_setWidth,
    BitVec.getLsbD_ushiftRight]
  by_cases h8 : i < 8
  · simp [h8]
  · have : 8 + (i - 8) = i := by omega
    have h' : i - 8 < 8 := by omega
    simp [h8, h', this]

/-- Bits 7 to 0 of two bytes joined. -/
@[simp] theorem lowByte_joinBytes (l h : Byte) : lowByte (joinBytes l h) = l := by
  apply BitVec.eq_of_getLsbD_eq
  intro i hi
  simp only [joinBytes, lowByte, BitVec.getLsbD_setWidth, BitVec.getLsbD_append]
  simp [hi]

/-- Bits 15 to 8 of two bytes joined. -/
@[simp] theorem highByte_joinBytes (l h : Byte) : highByte (joinBytes l h) = h := by
  apply BitVec.eq_of_getLsbD_eq
  intro i hi
  simp only [joinBytes, highByte, BitVec.getLsbD_setWidth, BitVec.getLsbD_ushiftRight,
    BitVec.getLsbD_append]
  simp [hi]

/-- A halfword written is the halfword read (20_memory.md R45). -/
@[simp] theorem Memory.readHalfword_writeHalfword (m : Memory) (a v : Halfword) :
    (m.writeHalfword a v).readHalfword a = v := by
  unfold Memory.readHalfword
  rw [Memory.read_writeHalfword_low, Memory.read_writeHalfword_high, joinBytes_split]

/-! ### The set of written addresses -/

/-- What is in the set after an address enters it. -/
theorem mem_addAddress (a b : Nat) (w : List Nat) : b ∈ addAddress a w ↔ b = a ∨ b ∈ w := by
  induction w with
  | nil => simp [addAddress]
  | cons c rest ih =>
    unfold addAddress
    split
    · simp
    · split
      · rename_i h
        simp [h]
      · simp [ih, or_left_comm]

/-- An address entering the set keeps its canonical form. -/
theorem writtenWf_addAddress (a : Nat) (w : List Nat) (hw : writtenWf w) (ha : a < 65536) :
    writtenWf (addAddress a w) := by
  refine ⟨?_, fun b hb => ?_⟩
  · have hp := hw.1
    clear hw
    induction w with
    | nil => simp [addAddress]
    | cons c rest ih =>
      rw [List.pairwise_cons] at hp
      unfold addAddress
      split
      · rename_i h
        refine List.pairwise_cons.mpr ⟨fun d hd => ?_, List.pairwise_cons.mpr hp⟩
        rcases List.mem_cons.mp hd with rfl | hd
        · exact h
        · exact Nat.lt_trans h (hp.1 d hd)
      · split
        · exact List.pairwise_cons.mpr hp
        · refine List.pairwise_cons.mpr ⟨fun d hd => ?_, ih hp.2⟩
          rcases (mem_addAddress a d rest).mp hd with rfl | hd
          · omega
          · exact hp.1 d hd
  · rcases (mem_addAddress a b w).mp hb with rfl | hb
    · exact ha
    · exact hw.2 b hb

end Sys2Proof.Machine
end

