-- ==== Sys2Proof/Laws/State.lean ====
section
/-! SUPPORT. What each update of the state does to each of its fields, so that no proof unfolds a
record update. -/

namespace Sys2Proof.Machine

variable (s : State)

/-! `State.setRegs` -/

@[simp] theorem State.setRegs_regs (x : Vector Halfword 15) : (s.setRegs x).regs = x := rfl
@[simp] theorem State.setRegs_pc (x : Vector Halfword 15) : (s.setRegs x).pc = s.pc := rfl
@[simp] theorem State.setRegs_flags (x : Vector Halfword 15) : (s.setRegs x).flags = s.flags := rfl
@[simp] theorem State.setRegs_halted (x : Vector Halfword 15) : (s.setRegs x).halted = s.halted := rfl
@[simp] theorem State.setRegs_mem (x : Vector Halfword 15) : (s.setRegs x).mem = s.mem := rfl
@[simp] theorem State.setRegs_written (x : Vector Halfword 15) : (s.setRegs x).written = s.written := rfl
@[simp] theorem State.setRegs_deviceEvents (x : Vector Halfword 15) : (s.setRegs x).deviceEvents = s.deviceEvents := rfl
@[simp] theorem State.setRegs_draws (x : Vector Halfword 15) : (s.setRegs x).draws = s.draws := rfl
@[simp] theorem State.setRegs_params (x : Vector Halfword 15) : (s.setRegs x).params = s.params := rfl

/-! `State.setPc` -/

@[simp] theorem State.setPc_regs (x : Halfword) : (s.setPc x).regs = s.regs := rfl
@[simp] theorem State.setPc_pc (x : Halfword) : (s.setPc x).pc = x := rfl
@[simp] theorem State.setPc_flags (x : Halfword) : (s.setPc x).flags = s.flags := rfl
@[simp] theorem State.setPc_halted (x : Halfword) : (s.setPc x).halted = s.halted := rfl
@[simp] theorem State.setPc_mem (x : Halfword) : (s.setPc x).mem = s.mem := rfl
@[simp] theorem State.setPc_written (x : Halfword) : (s.setPc x).written = s.written := rfl
@[simp] theorem State.setPc_deviceEvents (x : Halfword) : (s.setPc x).deviceEvents = s.deviceEvents := rfl
@[simp] theorem State.setPc_draws (x : Halfword) : (s.setPc x).draws = s.draws := rfl
@[simp] theorem State.setPc_params (x : Halfword) : (s.setPc x).params = s.params := rfl

/-! `State.setFlags` -/

@[simp] theorem State.setFlags_regs (x : Flags) : (s.setFlags x).regs = s.regs := rfl
@[simp] theorem State.setFlags_pc (x : Flags) : (s.setFlags x).pc = s.pc := rfl
@[simp] theorem State.setFlags_flags (x : Flags) : (s.setFlags x).flags = x := rfl
@[simp] theorem State.setFlags_halted (x : Flags) : (s.setFlags x).halted = s.halted := rfl
@[simp] theorem State.setFlags_mem (x : Flags) : (s.setFlags x).mem = s.mem := rfl
@[simp] theorem State.setFlags_written (x : Flags) : (s.setFlags x).written = s.written := rfl
@[simp] theorem State.setFlags_deviceEvents (x : Flags) : (s.setFlags x).deviceEvents = s.deviceEvents := rfl
@[simp] theorem State.setFlags_draws (x : Flags) : (s.setFlags x).draws = s.draws := rfl
@[simp] theorem State.setFlags_params (x : Flags) : (s.setFlags x).params = s.params := rfl

/-! `State.setHalted` -/

@[simp] theorem State.setHalted_regs (x : Bool) : (s.setHalted x).regs = s.regs := rfl
@[simp] theorem State.setHalted_pc (x : Bool) : (s.setHalted x).pc = s.pc := rfl
@[simp] theorem State.setHalted_flags (x : Bool) : (s.setHalted x).flags = s.flags := rfl
@[simp] theorem State.setHalted_halted (x : Bool) : (s.setHalted x).halted = x := rfl
@[simp] theorem State.setHalted_mem (x : Bool) : (s.setHalted x).mem = s.mem := rfl
@[simp] theorem State.setHalted_written (x : Bool) : (s.setHalted x).written = s.written := rfl
@[simp] theorem State.setHalted_deviceEvents (x : Bool) : (s.setHalted x).deviceEvents = s.deviceEvents := rfl
@[simp] theorem State.setHalted_draws (x : Bool) : (s.setHalted x).draws = s.draws := rfl
@[simp] theorem State.setHalted_params (x : Bool) : (s.setHalted x).params = s.params := rfl

/-! `State.setMem` -/

@[simp] theorem State.setMem_regs (x : Memory) : (s.setMem x).regs = s.regs := rfl
@[simp] theorem State.setMem_pc (x : Memory) : (s.setMem x).pc = s.pc := rfl
@[simp] theorem State.setMem_flags (x : Memory) : (s.setMem x).flags = s.flags := rfl
@[simp] theorem State.setMem_halted (x : Memory) : (s.setMem x).halted = s.halted := rfl
@[simp] theorem State.setMem_mem (x : Memory) : (s.setMem x).mem = x := rfl
@[simp] theorem State.setMem_written (x : Memory) : (s.setMem x).written = s.written := rfl
@[simp] theorem State.setMem_deviceEvents (x : Memory) : (s.setMem x).deviceEvents = s.deviceEvents := rfl
@[simp] theorem State.setMem_draws (x : Memory) : (s.setMem x).draws = s.draws := rfl
@[simp] theorem State.setMem_params (x : Memory) : (s.setMem x).params = s.params := rfl

/-! `State.setWritten` -/

@[simp] theorem State.setWritten_regs (x : List Nat) : (s.setWritten x).regs = s.regs := rfl
@[simp] theorem State.setWritten_pc (x : List Nat) : (s.setWritten x).pc = s.pc := rfl
@[simp] theorem State.setWritten_flags (x : List Nat) : (s.setWritten x).flags = s.flags := rfl
@[simp] theorem State.setWritten_halted (x : List Nat) : (s.setWritten x).halted = s.halted := rfl
@[simp] theorem State.setWritten_mem (x : List Nat) : (s.setWritten x).mem = s.mem := rfl
@[simp] theorem State.setWritten_written (x : List Nat) : (s.setWritten x).written = x := rfl
@[simp] theorem State.setWritten_deviceEvents (x : List Nat) : (s.setWritten x).deviceEvents = s.deviceEvents := rfl
@[simp] theorem State.setWritten_draws (x : List Nat) : (s.setWritten x).draws = s.draws := rfl
@[simp] theorem State.setWritten_params (x : List Nat) : (s.setWritten x).params = s.params := rfl

/-! `State.setEvents` -/

@[simp] theorem State.setEvents_regs (x : List DeviceEvent) : (s.setEvents x).regs = s.regs := rfl
@[simp] theorem State.setEvents_pc (x : List DeviceEvent) : (s.setEvents x).pc = s.pc := rfl
@[simp] theorem State.setEvents_flags (x : List DeviceEvent) : (s.setEvents x).flags = s.flags := rfl
@[simp] theorem State.setEvents_halted (x : List DeviceEvent) : (s.setEvents x).halted = s.halted := rfl
@[simp] theorem State.setEvents_mem (x : List DeviceEvent) : (s.setEvents x).mem = s.mem := rfl
@[simp] theorem State.setEvents_written (x : List DeviceEvent) : (s.setEvents x).written = s.written := rfl
@[simp] theorem State.setEvents_deviceEvents (x : List DeviceEvent) : (s.setEvents x).deviceEvents = x := rfl
@[simp] theorem State.setEvents_draws (x : List DeviceEvent) : (s.setEvents x).draws = s.draws := rfl
@[simp] theorem State.setEvents_params (x : List DeviceEvent) : (s.setEvents x).params = s.params := rfl

/-! `State.setDraws` -/

@[simp] theorem State.setDraws_regs (x : Nat) : (s.setDraws x).regs = s.regs := rfl
@[simp] theorem State.setDraws_pc (x : Nat) : (s.setDraws x).pc = s.pc := rfl
@[simp] theorem State.setDraws_flags (x : Nat) : (s.setDraws x).flags = s.flags := rfl
@[simp] theorem State.setDraws_halted (x : Nat) : (s.setDraws x).halted = s.halted := rfl
@[simp] theorem State.setDraws_mem (x : Nat) : (s.setDraws x).mem = s.mem := rfl
@[simp] theorem State.setDraws_written (x : Nat) : (s.setDraws x).written = s.written := rfl
@[simp] theorem State.setDraws_deviceEvents (x : Nat) : (s.setDraws x).deviceEvents = s.deviceEvents := rfl
@[simp] theorem State.setDraws_draws (x : Nat) : (s.setDraws x).draws = x := rfl
@[simp] theorem State.setDraws_params (x : Nat) : (s.setDraws x).params = s.params := rfl

/-! `State.setParams` -/

@[simp] theorem State.setParams_regs (x : Params) : (s.setParams x).regs = s.regs := rfl
@[simp] theorem State.setParams_pc (x : Params) : (s.setParams x).pc = s.pc := rfl
@[simp] theorem State.setParams_flags (x : Params) : (s.setParams x).flags = s.flags := rfl
@[simp] theorem State.setParams_halted (x : Params) : (s.setParams x).halted = s.halted := rfl
@[simp] theorem State.setParams_mem (x : Params) : (s.setParams x).mem = s.mem := rfl
@[simp] theorem State.setParams_written (x : Params) : (s.setParams x).written = s.written := rfl
@[simp] theorem State.setParams_deviceEvents (x : Params) : (s.setParams x).deviceEvents = s.deviceEvents := rfl
@[simp] theorem State.setParams_draws (x : Params) : (s.setParams x).draws = s.draws := rfl
@[simp] theorem State.setParams_params (x : Params) : (s.setParams x).params = x := rfl

/-! The launch (70_reset_and_hazards.md R140, R141). -/

variable (l : Launch)

@[simp] theorem State.launch_regs : (State.launch l).regs = l.regs := rfl
@[simp] theorem State.launch_pc : (State.launch l).pc = 0 := rfl
@[simp] theorem State.launch_flags : (State.launch l).flags = l.flags := rfl
@[simp] theorem State.launch_halted : (State.launch l).halted = false := rfl
@[simp] theorem State.launch_mem : (State.launch l).mem = l.mem := rfl
@[simp] theorem State.launch_written : (State.launch l).written = [] := rfl
@[simp] theorem State.launch_deviceEvents : (State.launch l).deviceEvents = [] := rfl
@[simp] theorem State.launch_draws : (State.launch l).draws = 0 := rfl
@[simp] theorem State.launch_params : (State.launch l).params = l.params := rfl

end Sys2Proof.Machine
end

