-- ==== Sys2Proof/Laws/Ops.lean ====
section
/-! SUPPORT. One lemma per shared operation that says once everything it can do; later proofs cite
these and do not unfold the operations. -/

namespace Sys2Proof.Machine

variable {α β : Type}

/-! ### Sequencing -/

@[simp] theorem andThen_next (a : α) (f : α → Result β) : andThen (.next a) f = f a := rfl
@[simp] theorem andThen_fault (r : Fault) (f : α → Result β) : andThen (.fault r) f = .fault r := rfl
@[simp] theorem andThen_refused (r : Refusal) (f : α → Result β) :
    andThen (.refused r) f = .refused r := rfl

/-- A sequence answers a value exactly when both its parts do. -/
theorem andThen_eq_next (o : Result α) (f : α → Result β) (b : β) :
    andThen o f = .next b ↔ ∃ a, o = .next a ∧ f a = .next b := by
  cases o <;> simp

/-- A sequence faults exactly when one of its parts does. -/
theorem andThen_eq_fault (o : Result α) (f : α → Result β) (r : Fault) :
    andThen o f = .fault r ↔ o = .fault r ∨ ∃ a, o = .next a ∧ f a = .fault r := by
  cases o <;> simp

/-- A sequence is refused exactly when one of its parts is. -/
theorem andThen_eq_refused (o : Result α) (f : α → Result β) (r : Refusal) :
    andThen o f = .refused r ↔ o = .refused r ∨ ∃ a, o = .next a ∧ f a = .refused r := by
  cases o <;> simp

/-! ### Registers -/

/-- A low register is not the PC. -/
@[simp] theorem toReg_val (r : LowReg) : r.toReg.val = r.val := rfl

theorem toReg_ne_regPC (r : LowReg) : r.toReg ≠ regPC := by
  intro h
  have h' := congrArg Fin.val h
  have := r.isLt
  simp at h'
  omega

theorem toReg_injective (r q : LowReg) : r.toReg = q.toReg ↔ r = q := by
  constructor
  · intro h
    have h' : r.toReg.val = q.toReg.val := congrArg Fin.val h
    exact Fin.ext h'
  · rintro rfl
    rfl

/-- Number 15 reads the PC (10_state.md R14). -/
@[simp] theorem readReg_regPC (s : State) : s.readReg regPC = s.pc := rfl

/-- Number 15 writes the PC (10_state.md R15). -/
@[simp] theorem writeReg_regPC (s : State) (v : Halfword) : s.writeReg regPC v = s.setPc v := rfl

/-- What a register reads as after a register is written: no register is hard-wired (10_state.md
R10). -/
theorem readReg_writeReg (s : State) (r q : Reg) (v : Halfword) :
    (s.writeReg r v).readReg q = if q = r then v else s.readReg q := by
  have hq := q.isLt
  have hr := r.isLt
  unfold State.writeReg State.readReg
  by_cases h3 : q = r
  · subst h3
    by_cases h1 : q.val < 15 <;> simp [h1]
  · have h4 : q.val ≠ r.val := fun h => h3 (Fin.ext h)
    rw [if_neg h3]
    by_cases h1 : r.val < 15
    · by_cases h2 : q.val < 15
      · simp [h1, h2, Ne.symm h4]
      · simp [h1, h2]
    · have h2 : q.val < 15 := by omega
      simp [h1, h2]

@[simp] theorem readReg_writeReg_same (s : State) (r : Reg) (v : Halfword) :
    (s.writeReg r v).readReg r = v := by
  rw [readReg_writeReg, if_pos rfl]

theorem readReg_writeReg_other (s : State) (r q : Reg) (v : Halfword) (h : q ≠ r) :
    (s.writeReg r v).readReg q = s.readReg q := by
  rw [readReg_writeReg, if_neg h]

@[simp] theorem readLow_writeLow_same (s : State) (r : LowReg) (v : Halfword) :
    (s.writeLow r v).readLow r = v := readReg_writeReg_same s r.toReg v

theorem readReg_writeLow (s : State) (r : LowReg) (q : Reg) (v : Halfword) :
    (s.writeLow r v).readReg q = if q = r.toReg then v else s.readReg q :=
  readReg_writeReg s r.toReg q v

/-- What a write of a register does to each field. -/
@[simp] theorem writeReg_flags (s : State) (r : Reg) (v : Halfword) :
    (s.writeReg r v).flags = s.flags := by
  unfold State.writeReg
  split <;> rfl
@[simp] theorem writeReg_halted (s : State) (r : Reg) (v : Halfword) :
    (s.writeReg r v).halted = s.halted := by
  unfold State.writeReg
  split <;> rfl
@[simp] theorem writeReg_mem (s : State) (r : Reg) (v : Halfword) :
    (s.writeReg r v).mem = s.mem := by
  unfold State.writeReg
  split <;> rfl
@[simp] theorem writeReg_written (s : State) (r : Reg) (v : Halfword) :
    (s.writeReg r v).written = s.written := by
  unfold State.writeReg
  split <;> rfl
@[simp] theorem writeReg_deviceEvents (s : State) (r : Reg) (v : Halfword) :
    (s.writeReg r v).deviceEvents = s.deviceEvents := by
  unfold State.writeReg
  split <;> rfl
@[simp] theorem writeReg_draws (s : State) (r : Reg) (v : Halfword) :
    (s.writeReg r v).draws = s.draws := by
  unfold State.writeReg
  split <;> rfl
@[simp] theorem writeReg_params (s : State) (r : Reg) (v : Halfword) :
    (s.writeReg r v).params = s.params := by
  unfold State.writeReg
  split <;> rfl

theorem writeReg_pc (s : State) (r : Reg) (v : Halfword) (h : r ≠ regPC) :
    (s.writeReg r v).pc = s.pc := by
  have hr : r.val < 15 := by
    have := r.isLt
    have h' : r.val ≠ 15 := fun hv => h (Fin.ext hv)
    omega
  simp [State.writeReg, hr]

@[simp] theorem writeLow_pc (s : State) (r : LowReg) (v : Halfword) :
    (s.writeLow r v).pc = s.pc := writeReg_pc s r.toReg v (toReg_ne_regPC r)
@[simp] theorem writeLow_flags (s : State) (r : LowReg) (v : Halfword) :
    (s.writeLow r v).flags = s.flags := writeReg_flags s r.toReg v
@[simp] theorem writeLow_halted (s : State) (r : LowReg) (v : Halfword) :
    (s.writeLow r v).halted = s.halted := writeReg_halted s r.toReg v
@[simp] theorem writeLow_mem (s : State) (r : LowReg) (v : Halfword) :
    (s.writeLow r v).mem = s.mem := writeReg_mem s r.toReg v
@[simp] theorem writeLow_written (s : State) (r : LowReg) (v : Halfword) :
    (s.writeLow r v).written = s.written := writeReg_written s r.toReg v
@[simp] theorem writeLow_deviceEvents (s : State) (r : LowReg) (v : Halfword) :
    (s.writeLow r v).deviceEvents = s.deviceEvents := writeReg_deviceEvents s r.toReg v
@[simp] theorem writeLow_draws (s : State) (r : LowReg) (v : Halfword) :
    (s.writeLow r v).draws = s.draws := writeReg_draws s r.toReg v
@[simp] theorem writeLow_params (s : State) (r : LowReg) (v : Halfword) :
    (s.writeLow r v).params = s.params := writeReg_params s r.toReg v

/-- A register other than the PC depends on the general registers only. -/
theorem readReg_congr (s t : State) (r : Reg) (h : r ≠ regPC) (hr : t.regs = s.regs) :
    t.readReg r = s.readReg r := by
  have h15 : r.val < 15 := by
    have := r.isLt
    have h' : r.val ≠ 15 := fun hv => h (Fin.ext hv)
    omega
  simp [State.readReg, h15, hr]

theorem readLow_congr (s t : State) (r : LowReg) (hr : t.regs = s.regs) :
    t.readLow r = s.readLow r := readReg_congr s t r.toReg (toReg_ne_regPC r) hr

@[simp] theorem readReg_setPc_of_ne (s : State) (a : Halfword) (r : Reg) (h : r ≠ regPC) :
    (s.setPc a).readReg r = s.readReg r := readReg_congr s _ r h rfl
@[simp] theorem readReg_setFlags (s : State) (f : Flags) (r : Reg) :
    (s.setFlags f).readReg r = s.readReg r := rfl
@[simp] theorem readReg_setHalted (s : State) (b : Bool) (r : Reg) :
    (s.setHalted b).readReg r = s.readReg r := rfl
@[simp] theorem readReg_setMem (s : State) (m : Memory) (r : Reg) :
    (s.setMem m).readReg r = s.readReg r := rfl
@[simp] theorem readReg_setWritten (s : State) (w : List Nat) (r : Reg) :
    (s.setWritten w).readReg r = s.readReg r := rfl
@[simp] theorem readReg_setEvents (s : State) (e : List DeviceEvent) (r : Reg) :
    (s.setEvents e).readReg r = s.readReg r := rfl
@[simp] theorem readReg_setDraws (s : State) (n : Nat) (r : Reg) :
    (s.setDraws n).readReg r = s.readReg r := rfl
@[simp] theorem readReg_setParams (s : State) (p : Params) (r : Reg) :
    (s.setParams p).readReg r = s.readReg r := rfl
@[simp] theorem readLow_setPc (s : State) (a : Halfword) (r : LowReg) :
    (s.setPc a).readLow r = s.readLow r := readLow_congr s _ r rfl
@[simp] theorem readLow_setFlags (s : State) (f : Flags) (r : LowReg) :
    (s.setFlags f).readLow r = s.readLow r := rfl

/-! ### The end of an instruction -/

/-- Everything the advance can answer as a next state (10_state.md R16, R17). -/
theorem advance_eq_next (s t : State) :
    advance s = .next t ↔
      (s.pc = 0xFFFE → s.params.fallThrough = .wrap) ∧ t = s.setPc (s.pc + 2) := by
  unfold advance
  split
  · rename_i h
    simp [h.1, h.2]
  · rename_i h
    simp only [Host.Outcome.next.injEq]
    constructor
    · rintro rfl
      refine ⟨fun hp => ?_, rfl⟩
      cases hf : s.params.fallThrough
      · exact absurd ⟨hp, hf⟩ h
      · rfl
    · rintro ⟨-, rfl⟩
      rfl

/-- The one fault of the advance (10_state.md R17, 60_exceptions.md R131). -/
theorem advance_eq_fault (s : State) (r : Fault) :
    advance s = .fault r ↔
      s.pc = 0xFFFE ∧ s.params.fallThrough = .fault ∧ r = .pcFallThrough s := by
  unfold advance
  split
  · rename_i h
    simp [h.1, h.2, eq_comm]
  · rename_i h
    constructor
    · intro h'
      cases h'
    · rintro ⟨h1, h2, -⟩
      exact absurd ⟨h1, h2⟩ h

/-- The advance refuses nothing. -/
theorem advance_ne_refused (s : State) (r : Refusal) : advance s ≠ .refused r := by
  unfold advance
  split <;> simp

/-- Everything the end of an instruction with a destination can answer as a next state (10_state.md
R15, R16). -/
theorem advanceUnlessPC_eq_next (d : Reg) (s t : State) :
    advanceUnlessPC d s = .next t ↔
      (d = regPC ∧ t = s) ∨ (d ≠ regPC ∧ advance s = .next t) := by
  unfold advanceUnlessPC
  split <;> simp_all [eq_comm]

/-! ### Addresses -/

/-- Everything the address arithmetic can answer (20_memory.md R31). -/
theorem wrapAddress_eq_next (p : Params) (e : Int) (a : Halfword) :
    wrapAddress p e = .next a ↔
      (p.wrap = .fault → 0 ≤ e ∧ e ≤ 65535) ∧ a = BitVec.ofInt 16 e := by
  unfold wrapAddress
  split
  · rename_i h
    simp only [reduceCtorEq, false_iff, not_and]
    intro h'
    have := h' h.1
    omega
  · rename_i h
    simp only [Host.Outcome.next.injEq]
    constructor
    · rintro rfl
      refine ⟨fun hp => ?_, rfl⟩
      by_contra hc
      exact h ⟨hp, by omega⟩
    · rintro ⟨-, rfl⟩
      rfl

/-- When the address arithmetic faults (20_memory.md R31). -/
theorem wrapAddress_eq_fault (p : Params) (e : Int) (r : Fault) :
    wrapAddress p e = .fault r ↔
      p.wrap = .fault ∧ (e < 0 ∨ 65535 < e) ∧ r = .addressWrap := by
  unfold wrapAddress
  split
  · rename_i h
    simp [h.1, h.2, eq_comm]
  · rename_i h
    constructor
    · intro h'
      cases h'
    · rintro ⟨h1, h2, -⟩
      exact absurd ⟨h1, h2⟩ h

theorem wrapAddress_ne_refused (p : Params) (e : Int) (r : Refusal) :
    wrapAddress p e ≠ .refused r := by
  unfold wrapAddress
  split <;> simp

/-- An exact sum of two halfwords, narrowed, is their sum modulo 2^16. -/
theorem ofInt_toNat_add (a b : Halfword) :
    BitVec.ofInt 16 ((a.toNat : Int) + (b.toNat : Int)) = a + b := by
  apply BitVec.eq_of_toInt_eq
  rw [BitVec.toInt_ofInt, BitVec.toInt_add, BitVec.toInt_eq_toNat_bmod, BitVec.toInt_eq_toNat_bmod]
  simp

/-- The effective address is base plus offset modulo 2^16 (41_load_store.md R104). -/
theorem effectiveAddress_eq_next (s : State) (rb : LowReg) (offset a : Halfword) :
    effectiveAddress s rb offset = .next a ↔
      (s.params.wrap = .fault → (s.readLow rb).toNat + offset.toNat ≤ 65535) ∧
        a = s.readLow rb + offset := by
  unfold effectiveAddress
  rw [wrapAddress_eq_next, ofInt_toNat_add]
  constructor
  · rintro ⟨h, rfl⟩
    exact ⟨fun hp => by have := h hp; omega, rfl⟩
  · rintro ⟨h, rfl⟩
    exact ⟨fun hp => by have := h hp; omega, rfl⟩

/-! ### Bookkeeping of devices, draws and written addresses -/

/-- What recording a device access changes: the list of accesses only. -/
theorem recordEvent_eq (s : State) (e : DeviceEvent) :
    s.recordEvent e = s.setEvents (s.deviceEvents ++ [e]) := rfl

/-- What drawing a free value changes: the counter only. -/
theorem nextDraw_eq (s : State) : s.nextDraw = s.setDraws (s.draws + 1) := rfl

/-- What marking an address changes: the set of written addresses only. -/
theorem markWritten_eq (s : State) (a : Halfword) :
    s.markWritten a = s.setWritten (addAddress a.toNat s.written) := rfl

/-- What is in the set of written addresses after two neighbouring ones enter it. -/
theorem mem_markWritten_two (s : State) (a : Halfword) (b : Nat) :
    b ∈ ((s.markWritten a).markWritten (a + 1)).written ↔
      b = a.toNat ∨ b = (a + 1).toNat ∨ b ∈ s.written := by
  show b ∈ addAddress (a + 1).toNat (addAddress a.toNat s.written) ↔ _
  rw [mem_addAddress, mem_addAddress]
  exact or_left_comm

/-! ### Loads and stores -/

/-- What a load leaves alone. -/
structure LoadKeeps (s t : State) : Prop where
  regs : t.regs = s.regs
  pc : t.pc = s.pc
  flags : t.flags = s.flags
  halted : t.halted = s.halted
  mem : t.mem = s.mem
  written : t.written = s.written
  params : t.params = s.params
  events : s.deviceEvents <+: t.deviceEvents

/-- A load leaves everything but the list of device accesses and the counter alone. -/
theorem loadByte_keeps (s : State) (a : Halfword) : LoadKeeps s (loadByte s a).2 := by
  unfold loadByte
  split
  · exact ⟨rfl, rfl, rfl, rfl, rfl, rfl, rfl, List.prefix_append _ _⟩
  · exact ⟨rfl, rfl, rfl, rfl, rfl, rfl, rfl, List.prefix_refl _⟩

/-- A byte load from memory (20_memory.md R39). -/
theorem loadByte_memory (s : State) (a : Halfword) (h : isMmio s.params a = false) :
    loadByte s a = (s.mem.read a.toNat, s) := by
  simp [loadByte, h]

/-- A byte load from a device (20_memory.md R36). -/
theorem loadByte_device (s : State) (a : Halfword) (h : isMmio s.params a = true) :
    loadByte s a = (Config.deviceByte s.draws s.deviceEvents a,
      s.nextDraw.recordEvent (.loadByte a (Config.deviceByte s.draws s.deviceEvents a))) := by
  simp [loadByte, h]

/-- Everything a halfword load can answer (20_memory.md R36, R39). -/
theorem loadHalfword_eq_next (s t : State) (a v : Halfword) :
    loadHalfword s a = .next (v, t) ↔
      (isMmio s.params a = false ∧ isMmio s.params (a + 1) = false ∧
        v = s.mem.readHalfword a ∧ t = s) ∨
      (isMmio s.params a = true ∧ isMmio s.params (a + 1) = true ∧
        v = Config.deviceHalfword s.draws s.deviceEvents a ∧
        t = s.nextDraw.recordEvent
          (.loadHalfword a (Config.deviceHalfword s.draws s.deviceEvents a))) := by
  unfold loadHalfword
  cases isMmio s.params a <;> cases isMmio s.params (a + 1) <;>
    simp [eq_comm]

/-- A halfword load never faults. -/
theorem loadHalfword_ne_fault (s : State) (a : Halfword) (r : Fault) :
    loadHalfword s a ≠ .fault r := by
  unfold loadHalfword
  split <;> simp

/-- A halfword load is refused only across the edge of the I/O region. -/
theorem loadHalfword_eq_refused (s : State) (a : Halfword) (r : Refusal) :
    loadHalfword s a = .refused r ↔
      isMmio s.params a ≠ isMmio s.params (a + 1) ∧ r = .mmioStraddle := by
  unfold loadHalfword
  cases isMmio s.params a <;> cases isMmio s.params (a + 1) <;>
    simp [eq_comm]

theorem loadHalfword_keeps (s t : State) (a v : Halfword) (h : loadHalfword s a = .next (v, t)) :
    LoadKeeps s t := by
  rcases (loadHalfword_eq_next s t a v).mp h with ⟨-, -, -, rfl⟩ | ⟨-, -, -, rfl⟩
  · exact ⟨rfl, rfl, rfl, rfl, rfl, rfl, rfl, List.prefix_refl _⟩
  · exact ⟨rfl, rfl, rfl, rfl, rfl, rfl, rfl, List.prefix_append _ _⟩

/-- Everything the data of `LDR` can be (20_memory.md R38, 41_load_store.md R100). -/
theorem loadData_eq_next (s t : State) (a v : Halfword) :
    loadData s a = .next (v, t) ↔
      (wordAligned a = true ∧ loadHalfword s a = .next (v, t)) ∨
      (wordAligned a = false ∧ s.params.misaligned = .draw ∧
        ∃ w u, loadHalfword s a = .next (w, u) ∧ v = Config.misalignedLoad u.draws a ∧
          t = u.nextDraw) := by
  unfold loadData
  cases hw : wordAligned a
  · cases hm : s.params.misaligned
    · simp
    · simp only [Bool.false_eq_true, if_false, andThen_eq_next, false_and, true_and, false_or]
      constructor
      · rintro ⟨⟨w, u⟩, h1, h2⟩
        cases h2
        exact ⟨w, u, h1, rfl, rfl⟩
      · rintro ⟨w, u, h1, rfl, rfl⟩
        exact ⟨(w, u), h1, rfl⟩
  · simp

theorem loadData_keeps (s t : State) (a v : Halfword) (h : loadData s a = .next (v, t)) :
    LoadKeeps s t := by
  rcases (loadData_eq_next s t a v).mp h with ⟨-, hl⟩ | ⟨-, -, w, u, hl, -, rfl⟩
  · exact loadHalfword_keeps s t a v hl
  · have k := loadHalfword_keeps s u a w hl
    exact ⟨k.regs, k.pc, k.flags, k.halted, k.mem, k.written, k.params, k.events⟩

/-- What a store leaves alone. -/
structure StoreKeeps (s t : State) : Prop where
  regs : t.regs = s.regs
  pc : t.pc = s.pc
  flags : t.flags = s.flags
  halted : t.halted = s.halted
  params : t.params = s.params
  events : s.deviceEvents <+: t.deviceEvents

theorem storeByte_keeps (s : State) (a : Halfword) (v : Byte) : StoreKeeps s (storeByte s a v) := by
  unfold storeByte
  split
  · exact ⟨rfl, rfl, rfl, rfl, rfl, List.prefix_append _ _⟩
  · exact ⟨rfl, rfl, rfl, rfl, rfl, List.prefix_refl _⟩

/-- A byte store to memory (20_memory.md R39). -/
theorem storeByte_memory (s : State) (a : Halfword) (v : Byte)
    (h : isMmio s.params a = false) :
    storeByte s a v = (s.setMem (s.mem.write a.toNat v)).markWritten a := by
  simp [storeByte, h]

/-- A byte store to a device leaves memory unchanged (20_memory.md R36). -/
theorem storeByte_device (s : State) (a : Halfword) (v : Byte)
    (h : isMmio s.params a = true) :
    storeByte s a v = (s.recordEvent (.storeByte a v)).markWritten a := by
  simp [storeByte, h]

/-- Everything a halfword store can answer (20_memory.md R36, R39). -/
theorem storeHalfword_eq_next (s t : State) (a v : Halfword) :
    storeHalfword s a v = .next t ↔
      (isMmio s.params a = false ∧ isMmio s.params (a + 1) = false ∧
        t = ((s.setMem (s.mem.writeHalfword a v)).markWritten a).markWritten (a + 1)) ∨
      (isMmio s.params a = true ∧ isMmio s.params (a + 1) = true ∧
        t = ((s.recordEvent (.storeHalfword a v)).markWritten a).markWritten (a + 1)) := by
  unfold storeHalfword
  cases isMmio s.params a <;> cases isMmio s.params (a + 1) <;>
    simp [eq_comm]

theorem storeHalfword_ne_fault (s : State) (a v : Halfword) (r : Fault) :
    storeHalfword s a v ≠ .fault r := by
  unfold storeHalfword
  split <;> simp

/-- A halfword store is refused only across the edge of the I/O region. -/
theorem storeHalfword_eq_refused (s : State) (a v : Halfword) (r : Refusal) :
    storeHalfword s a v = .refused r ↔
      isMmio s.params a ≠ isMmio s.params (a + 1) ∧ r = .mmioStraddle := by
  unfold storeHalfword
  cases isMmio s.params a <;> cases isMmio s.params (a + 1) <;>
    simp [eq_comm]

theorem storeHalfword_keeps (s t : State) (a v : Halfword) (h : storeHalfword s a v = .next t) :
    StoreKeeps s t := by
  rcases (storeHalfword_eq_next s t a v).mp h with ⟨-, -, rfl⟩ | ⟨-, -, rfl⟩
  · exact ⟨rfl, rfl, rfl, rfl, rfl, List.prefix_refl _⟩
  · exact ⟨rfl, rfl, rfl, rfl, rfl, List.prefix_append _ _⟩

/-- Everything the store of `STR` can answer (20_memory.md R38, 41_load_store.md R102). -/
theorem storeData_eq_next (s t : State) (a v : Halfword) :
    storeData s a v = .next t ↔
      (wordAligned a = true ∧ storeHalfword s a v = .next t) ∨
      (wordAligned a = false ∧ s.params.misaligned = .draw ∧
        storeHalfword s.nextDraw a (Config.misalignedStore s.draws a v) = .next t) := by
  unfold storeData
  cases wordAligned a
  · cases s.params.misaligned <;> simp
  · simp

theorem storeData_keeps (s t : State) (a v : Halfword) (h : storeData s a v = .next t) :
    StoreKeeps s t := by
  rcases (storeData_eq_next s t a v).mp h with ⟨-, h⟩ | ⟨-, -, h⟩
  · exact storeHalfword_keeps s t a v h
  · have k := storeHalfword_keeps s.nextDraw t a _ h
    exact ⟨k.regs, k.pc, k.flags, k.halted, k.params, k.events⟩

/-! ### Branches and fetch -/

/-- Everything a branch can answer as a next state (42_branch.md R110). -/
theorem branchIf_eq_next (c : Cond) (o : BitVec 8) (s t : State) :
    branchIf c o s = .next t ↔
      (conditionPassed c s.flags = true ∧ ∃ target,
        wrapAddress s.params (s.pc.toNat + (branchOffset o).toInt) = .next target ∧
          t = s.setPc target) ∨
      (conditionPassed c s.flags = false ∧ advance s = .next t) := by
  unfold branchIf
  cases conditionPassed c s.flags
  · simp
  · simp only [if_true, andThen_eq_next, true_and, Bool.true_eq_false, false_and, or_false,
      Host.Outcome.next.injEq]
    simp only [eq_comm]

/-- Everything a fetch can answer as a word (20_memory.md R35, R42, R43; 10_state.md R27). -/
theorem fetch_eq_next (s : State) (w : Halfword) :
    fetch s = .next w ↔
      s.pc.toNat % 2 = 0 ∧ s.fetchesMmio = false ∧
        (s.params.smc = .fault → s.fetchesWritten = false) ∧ w = s.mem.readHalfword s.pc := by
  unfold fetch
  have h2 : s.pc.toNat % 2 = 0 ∨ s.pc.toNat % 2 = 1 := by omega
  rcases h2 with h2 | h2 <;> cases h3 : s.fetchesMmio <;> cases h4 : s.params.smc <;>
    cases h5 : s.fetchesWritten <;> simp [h2, eq_comm]

/-- When a fetched word is an instruction (30_encoding.md R62, R63). -/
theorem decodeFetched_eq_next (s : State) (w : Halfword) (i : Instr) :
    decodeFetched s w = .next i ↔ decode s.params.haltIgnoresUnused w = .ok i := by
  unfold decodeFetched
  split <;> simp_all

end Sys2Proof.Machine
end

