-- ==== Sys2Proof/Laws/PerInstr.lean ====
section
/-! SUPPORT. Statements about every instruction, one lemma per constructor. -/

namespace Sys2Proof.Laws.FixedBits

/-- The word of a well-formed instruction has the fixed bits of its row in the opcode map: masked,
it is the row's match (30_encoding.md R62). -/
def Statement (i : Instr) : Prop :=
  i.WellFormed → encode i &&& (opcodeRow i).1 = (opcodeRow i).2

/-- Formats 3 and 12: no field reaches the five fixed bits. -/
theorem rdImm8 : ∀ (rd : LowReg) (imm8 : BitVec 8),
    encodeRdImm8 0x2000 rd imm8 &&& 0xF800 = 0x2000 ∧
    encodeRdImm8 0x2800 rd imm8 &&& 0xF800 = 0x2800 ∧
    encodeRdImm8 0xA000 rd imm8 &&& 0xF800 = 0xA000 := by
  decide +kernel

/-- Format 9: no field reaches the five fixed bits. -/
theorem rdRbImm5 : ∀ (rd rb : LowReg) (imm5 : BitVec 5),
    encodeRdRbImm5 0x6000 rd rb imm5 &&& 0xF800 = 0x6000 ∧
    encodeRdRbImm5 0x6800 rd rb imm5 &&& 0xF800 = 0x6800 ∧
    encodeRdRbImm5 0x7000 rd rb imm5 &&& 0xF800 = 0x7000 ∧
    encodeRdRbImm5 0x7800 rd rb imm5 &&& 0xF800 = 0x7800 := by
  decide +kernel

/-- Format 4: no field reaches the ten fixed bits. -/
theorem rdRs : ∀ rd rs : LowReg,
    encodeRdRs 0x4000 rd rs &&& 0xFFC0 = 0x4000 ∧
    encodeRdRs 0x4040 rd rs &&& 0xFFC0 = 0x4040 ∧
    encodeRdRs 0x4080 rd rs &&& 0xFFC0 = 0x4080 ∧
    encodeRdRs 0x40C0 rd rs &&& 0xFFC0 = 0x40C0 ∧
    encodeRdRs 0x4100 rd rs &&& 0xFFC0 = 0x4100 ∧
    encodeRdRs 0x4140 rd rs &&& 0xFFC0 = 0x4140 := by
  decide +kernel

/-- Format 5: no field reaches the eight fixed bits, and the H bits are the registers' high bits. -/
theorem hiRegs : ∀ rd rs : Reg,
    encodeHiRegs 0x4400 rd rs &&& 0xFF00 = 0x4400 ∧
    encodeHiRegs 0x4600 rd rs &&& 0xFF00 = 0x4600 ∧
    (rd.isHigh = true → encodeHiRegs 0x4500 rd rs &&& 0xFF80 = 0x4580) ∧
    (rd.isHigh = false → rs.isHigh = true → encodeHiRegs 0x4500 rd rs &&& 0xFFC0 = 0x4540) := by
  decide +kernel

theorem toReg_isHigh : ∀ r : LowReg, r.toReg.isHigh = false := by
  decide

/-- Format 16: the offset does not reach the eight fixed bits. -/
theorem branch : ∀ o : BitVec 8,
    encodeBranch 0 o &&& 0xFF00 = 0xD000 ∧
    encodeBranch 1 o &&& 0xFF00 = 0xD100 ∧
    encodeBranch 2 o &&& 0xFF00 = 0xD200 ∧
    encodeBranch 3 o &&& 0xFF00 = 0xD300 ∧
    encodeBranch 4 o &&& 0xFF00 = 0xD400 ∧
    encodeBranch 5 o &&& 0xFF00 = 0xD500 ∧
    encodeBranch 6 o &&& 0xFF00 = 0xD600 ∧
    encodeBranch 7 o &&& 0xFF00 = 0xD700 ∧
    encodeBranch 8 o &&& 0xFF00 = 0xD800 ∧
    encodeBranch 9 o &&& 0xFF00 = 0xD900 ∧
    encodeBranch 10 o &&& 0xFF00 = 0xDA00 ∧
    encodeBranch 11 o &&& 0xFF00 = 0xDB00 ∧
    encodeBranch 12 o &&& 0xFF00 = 0xDC00 ∧
    encodeBranch 13 o &&& 0xFF00 = 0xDD00 := by
  decide +kernel

theorem halt : Statement .halt := fun _ => rfl
theorem mov1 (rd : LowReg) (imm8 : BitVec 8) : Statement (.mov1 rd imm8) :=
  fun _ => (rdImm8 rd imm8).1
theorem cmp1 (rd : LowReg) (imm8 : BitVec 8) : Statement (.cmp1 rd imm8) :=
  fun _ => (rdImm8 rd imm8).2.1
theorem and (rd rs : LowReg) : Statement (.and rd rs) :=
  fun _ => (rdRs rd rs).1
theorem eor (rd rs : LowReg) : Statement (.eor rd rs) :=
  fun _ => (rdRs rd rs).2.1
theorem asr (rd rs : LowReg) : Statement (.asr rd rs) :=
  fun _ => (rdRs rd rs).2.2.1
theorem tst (rd rs : LowReg) : Statement (.tst rd rs) :=
  fun _ => (rdRs rd rs).2.2.2.1
theorem neg (rd rs : LowReg) : Statement (.neg rd rs) :=
  fun _ => (rdRs rd rs).2.2.2.2.1
theorem cmp2 (rd rs : LowReg) : Statement (.cmp2 rd rs) :=
  fun _ => (rdRs rd rs).2.2.2.2.2
theorem add1 (rd rs : Reg) : Statement (.add1 rd rs) :=
  fun _ => (hiRegs rd rs).1
theorem cmp3High (rd rs : Reg) : Statement (.cmp3High rd rs) :=
  fun h => (hiRegs rd rs).2.2.1 h
theorem cmp3Low (rd : LowReg) (rs : Reg) : Statement (.cmp3Low rd rs) :=
  fun h => (hiRegs rd.toReg rs).2.2.2 (toReg_isHigh rd) h
theorem mov2 (rd rs : Reg) : Statement (.mov2 rd rs) :=
  fun _ => (hiRegs rd rs).2.1
theorem str (rd rb : LowReg) (imm5 : BitVec 5) : Statement (.str rd rb imm5) :=
  fun _ => (rdRbImm5 rd rb imm5).1
theorem ldr (rd rb : LowReg) (imm5 : BitVec 5) : Statement (.ldr rd rb imm5) :=
  fun _ => (rdRbImm5 rd rb imm5).2.1
theorem strb (rd rb : LowReg) (imm5 : BitVec 5) : Statement (.strb rd rb imm5) :=
  fun _ => (rdRbImm5 rd rb imm5).2.2.1
theorem ldrb (rd rb : LowReg) (imm5 : BitVec 5) : Statement (.ldrb rd rb imm5) :=
  fun _ => (rdRbImm5 rd rb imm5).2.2.2
theorem add2 (rd : LowReg) (imm8 : BitVec 8) : Statement (.add2 rd imm8) :=
  fun _ => (rdImm8 rd imm8).2.2
theorem beq (o : BitVec 8) : Statement (.beq o) :=
  fun _ => (branch o).1
theorem bne (o : BitVec 8) : Statement (.bne o) :=
  fun _ => (branch o).2.1
theorem bcs (o : BitVec 8) : Statement (.bcs o) :=
  fun _ => (branch o).2.2.1
theorem bcc (o : BitVec 8) : Statement (.bcc o) :=
  fun _ => (branch o).2.2.2.1
theorem bmi (o : BitVec 8) : Statement (.bmi o) :=
  fun _ => (branch o).2.2.2.2.1
theorem bpl (o : BitVec 8) : Statement (.bpl o) :=
  fun _ => (branch o).2.2.2.2.2.1
theorem bvs (o : BitVec 8) : Statement (.bvs o) :=
  fun _ => (branch o).2.2.2.2.2.2.1
theorem bvc (o : BitVec 8) : Statement (.bvc o) :=
  fun _ => (branch o).2.2.2.2.2.2.2.1
theorem bhi (o : BitVec 8) : Statement (.bhi o) :=
  fun _ => (branch o).2.2.2.2.2.2.2.2.1
theorem bls (o : BitVec 8) : Statement (.bls o) :=
  fun _ => (branch o).2.2.2.2.2.2.2.2.2.1
theorem bge (o : BitVec 8) : Statement (.bge o) :=
  fun _ => (branch o).2.2.2.2.2.2.2.2.2.2.1
theorem blt (o : BitVec 8) : Statement (.blt o) :=
  fun _ => (branch o).2.2.2.2.2.2.2.2.2.2.2.1
theorem bgt (o : BitVec 8) : Statement (.bgt o) :=
  fun _ => (branch o).2.2.2.2.2.2.2.2.2.2.2.2.1
theorem ble (o : BitVec 8) : Statement (.ble o) :=
  fun _ => (branch o).2.2.2.2.2.2.2.2.2.2.2.2.2

end Sys2Proof.Laws.FixedBits
end

