-- ==== Sys2Proof/Tests/Slice0.lean ====
section
/-! SUPPORT. The model's own tests. Expected values are those of 95_test_vectors.md (V1 to V12) and of
the encodings of 30_encoding.md section 5, written out bit by bit. A `test_witness_` theorem shows a
state and operands that meet the hypotheses of the statement it names. -/

namespace Sys2Proof.Tests

open Sys2Proof Sys2Proof.Machine

/-! ### Helpers -/

/-- Flags from the digits N Z C V. -/
def nzcv (b : BitVec 4) : Flags :=
  { n := b.getLsbD 3, z := b.getLsbD 2, c := b.getLsbD 1, v := b.getLsbD 0 }

/-- A state with a PC, some registers and flags; everything else as after reset. -/
def start (pc : Halfword) (regs : List (Reg × Halfword)) (b : BitVec 4) : State :=
  regs.foldl (fun s p => s.writeReg p.1 p.2) ((State.reset.setPc pc).setFlags (nzcv b))

/-- One step on a word placed at the PC. -/
def runWord (w : Nat) (s : State) : Host.Outcome State Fault Refusal := step (s.withFetchWord 16 w)

/-- A register, the flags and the PC of a next state. -/
def seen (o : Host.Outcome State Fault Refusal) (r : Reg) :
    Option (Halfword × BitVec 4 × Halfword) :=
  match o with
  | .next t => some (t.readReg r, t.flags.statusBits, t.pc)
  | _ => none

/-- Some bytes of the memory of a next state. -/
def bytes (o : Host.Outcome State Fault Refusal) (as : List Nat) : Option (List Byte) :=
  match o with
  | .next t => some (as.map t.mem.read)
  | _ => none

/-- The fault an outcome is, without the state it carries. -/
def faulted (o : Host.Outcome State Fault Refusal) (r : Fault) : Bool :=
  match o with
  | .fault f => decide (f = r)
  | _ => false

/-- The refusal an outcome is. -/
def refused (o : Host.Outcome State Fault Refusal) (r : Refusal) : Bool :=
  match o with
  | .refused q => decide (q = r)
  | _ => false

/-- The same state with the spec's default parameters. -/
def strict (s : State) : State := s.setParams Params.specDefault

/-- The same state with an I/O region of 0xF000 to 0xF0FF. -/
def withIO (s : State) : State :=
  s.setParams { s.params with mmioRegion := [{ first := 0xF000, last := 0xF0FF }] }

/-! ### WellFormed refuses ill-formed terms (30_encoding.md R65) -/

theorem test_illformed_cmp3High : ¬ (Instr.cmp3High 7 15).WellFormed := by decide
theorem test_illformed_cmp3Low : ¬ (Instr.cmp3Low 0 7).WellFormed := by decide
theorem test_wellformed_edges :
    (Instr.cmp3High 8 0).WellFormed ∧ (Instr.cmp3Low 7 8).WellFormed := by decide

/-! ### Decoding words written out from the patterns of 30_encoding.md R62 -/

theorem test_decode_halt : decode false 0b0000000000000000 = .ok .halt := by decide
theorem test_decode_mov1 : decode false 0b0010011110000001 = .ok (.mov1 7 0x81) := by decide
theorem test_decode_cmp1 : decode false 0b0010101100000001 = .ok (.cmp1 3 1) := by decide
theorem test_decode_and : decode false 0b0100000000011010 = .ok (.and 2 3) := by decide
theorem test_decode_eor : decode false 0b0100000001011010 = .ok (.eor 2 3) := by decide
theorem test_decode_asr : decode false 0b0100000010001000 = .ok (.asr 0 1) := by decide
theorem test_decode_tst : decode false 0b0100000011011010 = .ok (.tst 2 3) := by decide
theorem test_decode_neg : decode false 0b0100000100001000 = .ok (.neg 0 1) := by decide
theorem test_decode_cmp2 : decode false 0b0100000101001000 = .ok (.cmp2 0 1) := by decide
theorem test_decode_add1 : decode false 0b0100010010010101 = .ok (.add1 13 2) := by decide
theorem test_decode_cmp3High : decode false 0b0100010111110111 = .ok (.cmp3High 15 14) := by decide
theorem test_decode_cmp3Low : decode false 0b0100010101000001 = .ok (.cmp3Low 1 8) := by decide
theorem test_decode_mov2 : decode false 0b0100011001111000 = .ok (.mov2 0 15) := by decide
theorem test_decode_str : decode false 0b0110000010001000 = .ok (.str 0 1 2) := by decide
theorem test_decode_ldr : decode false 0b0110111111001000 = .ok (.ldr 0 1 31) := by decide
theorem test_decode_strb : decode false 0b0111000011001000 = .ok (.strb 0 1 3) := by decide
theorem test_decode_ldrb : decode false 0b0111111111001000 = .ok (.ldrb 0 1 31) := by decide
theorem test_decode_add2 : decode false 0b1010001100000010 = .ok (.add2 3 2) := by decide
theorem test_decode_beq : decode false 0b1101000010000000 = .ok (.beq 0x80) := by decide
theorem test_decode_bne : decode false 0b1101000111111110 = .ok (.bne 0xFE) := by decide
theorem test_decode_bcs : decode false 0b1101001000000001 = .ok (.bcs 1) := by decide
theorem test_decode_bcc : decode false 0b1101001100000010 = .ok (.bcc 2) := by decide
theorem test_decode_bmi : decode false 0b1101010000000011 = .ok (.bmi 3) := by decide
theorem test_decode_bpl : decode false 0b1101010100000100 = .ok (.bpl 4) := by decide
theorem test_decode_bvs : decode false 0b1101011000000101 = .ok (.bvs 5) := by decide
theorem test_decode_bvc : decode false 0b1101011100000110 = .ok (.bvc 6) := by decide
theorem test_decode_bhi : decode false 0b1101100000000111 = .ok (.bhi 7) := by decide
theorem test_decode_bls : decode false 0b1101100100001000 = .ok (.bls 8) := by decide
theorem test_decode_bge : decode false 0b1101101000001001 = .ok (.bge 9) := by decide
theorem test_decode_blt : decode false 0b1101101100001010 = .ok (.blt 10) := by decide
theorem test_decode_bgt : decode false 0b1101110001111111 = .ok (.bgt 0x7F) := by decide
theorem test_decode_ble : decode false 0b1101110111111111 = .ok (.ble 0xFF) := by decide

/-- The first and last word of each row of the table of unassigned words (30_encoding.md R63) is
refused by its name. -/
theorem test_decode_unassigned :
    [0x0001, 0x00FF, 0x0100, 0x1FFF, 0x3000, 0x3FFF, 0x4180, 0x43FF, 0x4500, 0x453F, 0x4700, 0x47FF,
      0x4800, 0x5FFF, 0x8000, 0x9FFF, 0xA800, 0xAFFF, 0xB000, 0xCFFF, 0xDE00, 0xDFFF, 0xE000,
      0xFFFF].map (decode false) =
    [.error .haltUnusedNotZero, .error .haltUnusedNotZero, .error .format0Op, .error .format0Op,
      .error .format3Op, .error .format3Op, .error .format4Op, .error .format4Op,
      .error .cmp3BothLow, .error .cmp3BothLow, .error .format5Op, .error .format5Op,
      .error .noFormat, .error .noFormat, .error .noFormat, .error .noFormat, .error .format12Sp,
      .error .format12Sp, .error .noFormat, .error .noFormat, .error .format16Cond,
      .error .format16Cond, .error .noFormat, .error .noFormat] := by decide

/-- The low byte stands first (20_memory.md R34), and one instruction takes two bytes. -/
theorem test_decode_bytes :
    decodeBytes false [0x05, 0x21, 0xAA] = .ok (.mov1 1 5, [0xAA]) ∧
      decodeBytes false [0x05] = .error .tooFewBytes := by decide

theorem test_decodeTableWord :
    decodeTableWord 16 0x4487 = some (.add1 15 0) ∧ decodeTableWord 16 0xE000 = none := by decide

theorem test_encode_bytes : encodeBytes (.bne 0xFE) = [0xFE, 0xD1] := by decide

/-! ### One step of each instruction (95_test_vectors.md) -/

theorem test_add1_signed_overflow :
    seen (runWord 0x4408 (start 0x0100 [(0, 0x7FFF), (1, 0x0001)] 0b0000)) 0 =
      some (0x8000, 0b1001, 0x0102) := by decide
theorem test_add1_jump :
    seen (runWord 0x44FF (start 0x8000 [] 0b0000)) 15 = some (0x0000, 0b0111, 0x0000) := by decide

theorem test_add2_masks_the_pc :
    seen (runWord 0xA302 (start 0x0102 [] 0b1111)) 3 = some (0x0108, 0b1111, 0x0104) := by decide
theorem test_add2_wraps :
    seen (runWord 0xA001 (start 0xFFFE [] 0b1111)) 0 = some (0x0000, 0b1111, 0x0000) := by decide

theorem test_and :
    seen (runWord 0x401A (start 0x0100 [(2, 0x00FF), (3, 0xFF00)] 0b0011)) 2 =
      some (0x0000, 0b0111, 0x0102) := by decide
theorem test_eor :
    seen (runWord 0x405A (start 0x0100 [(2, 0xF0F0), (3, 0x0FF0)] 0b0011)) 2 =
      some (0xFF00, 0b1011, 0x0102) := by decide
theorem test_tst :
    seen (runWord 0x40DA (start 0x0100 [(2, 0x00FF), (3, 0xFF00)] 0b0011)) 2 =
      some (0x00FF, 0b0111, 0x0102) := by decide

theorem test_asr_floor :
    seen (runWord 0x4088 (start 0x0100 [(0, 0xFFFB), (1, 0x0001)] 0b0000)) 0 =
      some (0xFFFD, 0b1010, 0x0102) := by decide
theorem test_asr_low_byte_only :
    seen (runWord 0x4088 (start 0x0100 [(0, 0x8000), (1, 0x0100)] 0b0000)) 0 =
        some (0x8000, 0b1000, 0x0102) ∧
      seen (runWord 0x4088 (start 0x0100 [(0, 0x8000), (1, 0x01FF)] 0b0000)) 0 =
        some (0xFFFF, 0b1010, 0x0102) := by decide

theorem test_cmp1 :
    seen (runWord 0x2B01 (start 0x0100 [(3, 0x8000)] 0b0000)) 3 =
      some (0x8000, 0b0011, 0x0102) := by decide
theorem test_cmp2 :
    seen (runWord 0x4148 (start 0x0100 [(0, 0x7FFF), (1, 0xFFFF)] 0b0000)) 0 =
      some (0x7FFF, 0b1001, 0x0102) := by decide
theorem test_cmp3High :
    seen (runWord 0x45F7 (start 0x0100 [(14, 0x0102)] 0b0000)) 14 =
      some (0x0102, 0b1000, 0x0102) := by decide
theorem test_cmp3Low :
    seen (runWord 0x4541 (start 0x0100 [(1, 0x0001), (8, 0x0002)] 0b0000)) 1 =
      some (0x0001, 0b1000, 0x0102) := by decide
theorem test_cmp3_both_low :
    faulted (runWord 0x4508 (start 0x0100 [(0, 1), (1, 1)] 0b0000)) .unassignedEncoding = true := by
  decide

theorem test_mov1 :
    seen (runWord 0x2780 (start 0x0100 [(7, 0xAAAA)] 0b1011)) 7 =
      some (0x0080, 0b0011, 0x0102) := by decide
theorem test_mov2_to_pc :
    seen (runWord 0x4687 (start 0x0100 [(0, 0x8000)] 0b0000)) 0 =
      some (0x8000, 0b1000, 0x8000) := by decide
theorem test_mov2_from_pc :
    seen (runWord 0x4678 (start 0x0100 [] 0b0000)) 0 = some (0x0100, 0b0000, 0x0102) := by decide

theorem test_neg_zero_has_no_borrow :
    seen (runWord 0x4108 (start 0x0100 [(0, 0x5555)] 0b0000)) 0 =
      some (0x0000, 0b0110, 0x0102) := by decide
theorem test_neg_overflow :
    seen (runWord 0x4108 (start 0x0100 [(0, 0x5555), (1, 0x8000)] 0b0000)) 0 =
      some (0x8000, 0b1001, 0x0102) := by decide

theorem test_ldr :
    seen (runWord 0x6FC8 ((start 0x0100 [(1, 0x0100)] 0b1010).setMem
      [(0x017C, 0x34), (0x017D, 0x12)])) 0 = some (0x1234, 0b1010, 0x0102) := by decide
theorem test_ldr_misaligned_faults_by_default :
    faulted (runWord 0x6808 (strict (start 0x0100 [(1, 0x0202)] 0b0000))) .unpredictableAccess =
      true := by decide
/-- The misaligned data is the free value, and the rest proceeds normally (V12). -/
theorem test_ldr_misaligned_draws :
    seen (runWord 0x6808 (start 0x0100 [(1, 0x0202)] 0b0000)) 0 =
      some (Config.misalignedLoad 0 0x0202, 0b0000, 0x0102) := rfl

theorem test_ldrb :
    seen (runWord 0x7FC8 ((start 0x0100 [(0, 0xFFFF), (1, 0x0100)] 0b0000).setMem
      [(0x011F, 0x80)])) 0 = some (0x0080, 0b0000, 0x0102) := by decide
theorem test_ldrb_wraps :
    seen (runWord 0x7848 ((start 0x0100 [(1, 0xFFFF)] 0b0000).setMem [(0x0000, 0x5A)])) 0 =
      some (0x005A, 0b0000, 0x0102) := by decide

theorem test_str :
    bytes (runWord 0x6088 (start 0x0100 [(0, 0xBEEF), (1, 0x0300)] 0b0101)) [0x0308, 0x0309] =
      some [0xEF, 0xBE] := by decide
theorem test_strb_keeps_its_neighbours :
    bytes (runWord 0x70C8 ((start 0x0100 [(0, 0x1234), (1, 0x0300)] 0b0000).setMem
      [(0x0302, 0xAA), (0x0304, 0xBB)])) [0x0302, 0x0303, 0x0304] = some [0xAA, 0x34, 0xBB] := by
  decide

theorem test_beq_forward_and_wrapped :
    seen (runWord 0xD07F (start 0x0100 [] 0b0100)) 0 = some (0, 0b0100, 0x01FE) ∧
      seen (runWord 0xD080 (start 0x0010 [] 0b0100)) 0 = some (0, 0b0100, 0xFF10) := by decide
theorem test_bne_taken_and_not :
    seen (runWord 0xD1FE (start 0x000C [] 0b0000)) 0 = some (0, 0b0000, 0x0008) ∧
      seen (runWord 0xD1FE (start 0x000C [] 0b0100)) 0 = some (0, 0b0100, 0x000E) := by decide
theorem test_bge_not_taken :
    seen (runWord 0xDA03 (start 0x0008 [] 0b1010)) 0 = some (0, 0b1010, 0x000A) := by decide

/-- The truth table V10, one row a condition: bit 15 - k is the column of flags k. -/
theorem test_condition_table :
    ([.eq, .ne, .cs, .cc, .mi, .pl, .vs, .vc, .hi, .ls, .ge, .lt, .gt, .le] : List Cond).map
        (fun c => (List.range 16).map fun k => conditionPassed c (nzcv (BitVec.ofNat 4 k))) =
      [0x0F0F, 0xF0F0, 0x3333, 0xCCCC, 0x00FF, 0xFF00, 0x5555, 0xAAAA, 0x3030, 0xCFCF, 0xAA55,
        0x55AA, 0xA050, 0x5FAF].map
        (fun row => (List.range 16).map fun k => Nat.testBit row (15 - k)) := by decide

theorem test_halt :
    (match runWord 0x0000 (start 0xFFFE [] 0b0000) with
      | .next t => refused (step t) .halted
      | _ => false) = true := by decide

theorem test_fall_through_is_complete :
    faulted (runWord 0x2001 (strict (start 0xFFFE [] 0b0000))) (.pcFallThrough
      (((strict (start 0xFFFE [] 0b0000)).withFetchWord 16 0x2001).writeReg 0 1)) = true := by
  decide

theorem test_odd_pc : faulted (step (start 0x0101 [] 0b0000)) .misalignedFetch = true := by decide

/-- The parameter alternatives of V12. -/
theorem test_wrap_policy_fault :
    faulted (runWord 0xD080 ((start 0x0010 [] 0b0100).setParams
      { Params.specDefault with wrap := .fault })) .addressWrap = true := by decide
theorem test_halt_ignores_unused :
    decode true 0x0001 = .ok .halt ∧ decode false 0x0001 = .error .haltUnusedNotZero := by decide
theorem test_fetch_after_store :
    faulted (step ((strict (start 0x0010 [] 0b0000)).setWritten [0x0011])) .fetchAfterStore =
      true := by decide

/-- From reset with nothing placed, the first step runs 0x0000, `HALT` (log 16). -/
theorem test_reset_runs_halt : step State.reset = .next (State.reset.setHalted true) := rfl

/-- A stored halfword that a device receives is one event (92_eei_decisions.md D18). -/
theorem test_str_to_device :
    (match runWord 0x6008 (withIO (start 0x0100 [(0, 0xBEEF), (1, 0xF000)] 0b0000)) with
      | .next t => decide (t.deviceEvents = [.storeHalfword 0xF000 0xBEEF] ∧
          t.mem.read 0xF000 = 0)
      | _ => false) = true := by decide

/-! ### Witnesses: states and operands that meet a statement's hypotheses -/

/-- R0 = 0xF000 and R1 = 0x0100, PC 0x0100. -/
def base : State := start 0x0100 [(0, 0xF000), (1, 0x0100)] 0b0100

theorem test_canAdvance : base.CanAdvance ∧ (strict base).CanAdvance ∧
    (base.setPc 0xFFFE).CanAdvance := by
  unfold State.CanAdvance
  decide

theorem test_witness_DecodeOfEncodeIsIdentity :
    (Instr.cmp3High 8 0).WellFormed ∧ (Instr.cmp3Low 7 15).WellFormed := by decide
theorem test_witness_EncodeOfDecodeIsIdentity : decode false 0xDDFF = .ok (.ble 0xFF) := by decide
/-- Words at the edges of the three clauses: 0x00FF, 0x0001, 0x0100. -/
theorem test_witness_HaltUnusedField :
    (0x00FF : Halfword).toNat < 256 ∧ 0 < (0x0001 : Halfword).toNat ∧
      (0x0001 : Halfword).toNat < 256 ∧ 256 ≤ (0x0100 : Halfword).toNat := by decide

/-- The two bytes at the PC are 0x2001, and nothing is in the way of the fetch, under either policy. -/
theorem test_witness_StepRunsDecodedInstruction :
    let s := (strict base).setMem [(0x0100, 0x01), (0x0101, 0x20)]
    s.halted = false ∧ s.pc.toNat % 2 = 0 ∧ isMmio s.params s.pc = false ∧
      isMmio s.params (s.pc + 1) = false ∧
      (s.pc.toNat ∉ s.written ∧ (s.pc + 1).toNat ∉ s.written) ∧
      decode s.params.haltIgnoresUnused
        (s.mem.read (s.pc + 1).toNat ++ s.mem.read s.pc.toNat : Halfword) = .ok (.mov1 0 1) ∧
      base.params.smc = .coherent := by decide
theorem test_witness_HaltedMachineHasNoStep : (base.setHalted true).halted = true := rfl
/-- Both writers of an odd PC: `MOV PC, R0` at R0 = 0x0101, and `ADD PC, R0` with the odd sum
0x0201. -/
theorem test_witness_OddPCFaultsAtFetch :
    (base.setPc 0xFFFF).halted = false ∧ (base.setPc 0xFFFF).pc.toNat % 2 = 1 ∧
      (base.writeReg 0 0x0101).halted = false ∧
      ((base.writeReg 0 0x0101).readReg 0).toNat % 2 = 1 ∧
      (∃ t, exec (.mov2 regPC 0) (base.writeReg 0 0x0101) = .next t) ∧
      ((base.writeReg 0 0x0101).pc + (base.writeReg 0 0x0101).readReg 0).toNat % 2 = 1 ∧
      ∃ t, exec (.add1 regPC 0) (base.writeReg 0 0x0101) = .next t :=
  ⟨rfl, by decide, rfl, by decide, ⟨_, rfl⟩, by decide, _, rfl⟩
/-- Both alternatives: the first byte of the region at the PC, and at the PC plus 1. -/
theorem test_witness_FetchFromIOFaults :
    let s := withIO (base.setPc 0xF000)
    let t := (base.setPc 0x0FFE).setParams
      { base.params with mmioRegion := [{ first := 0x0FFF, last := 0x0FFF }] }
    (s.halted = false ∧ s.pc.toNat % 2 = 0 ∧ isMmio s.params s.pc = true) ∧
      t.halted = false ∧ t.pc.toNat % 2 = 0 ∧ isMmio t.params t.pc = false ∧
      isMmio t.params (t.pc + 1) = true := by decide
/-- Under each policy, with the stored byte at the PC and at the PC plus 1. -/
theorem test_witness_FetchOfStoredBytes :
    let s := (strict base).setWritten [0x0100]
    let t := base.setWritten [0x0101]
    (s.halted = false ∧ s.pc.toNat % 2 = 0 ∧ isMmio s.params s.pc = false ∧
      isMmio s.params (s.pc + 1) = false ∧ s.pc.toNat ∈ s.written ∧ s.params.smc = .fault) ∧
      t.halted = false ∧ t.pc.toNat % 2 = 0 ∧ isMmio t.params t.pc = false ∧
      isMmio t.params (t.pc + 1) = false ∧ (t.pc + 1).toNat ∈ t.written ∧
      t.params.smc = .coherent := by decide
/-- A state for the edge words of the ranges of unassigned words: 0x0001 and 0x00FF under
`HALT_IGNORES_UNUSED = false`, the others under `true`. -/
theorem test_witness_UnassignedWordFaults :
    ([(false, 0x0001), (false, 0x00FF), (true, 0x0100), (true, 0x1FFF), (true, 0x3000),
      (true, 0x43FF), (true, 0x4500), (true, 0x5FFF), (true, 0x8000), (true, 0xCFFF),
      (true, 0xFFFF)] : List (Bool × Nat)).all (fun p =>
      let s := (base.setParams { base.params with haltIgnoresUnused := p.1 }).withFetchWord 16 p.2
      !s.halted && s.params.haltIgnoresUnused == p.1 &&
        (match fetch s with
          | .next v => decide (v.toNat = p.2)
          | _ => false)) = true := by decide
theorem test_witness_LaunchRunsWordAtZero :
    let l : Launch := { Launch.atReset with mem := [(1, 0x20)] }
    isMmio l.params 0 = false ∧ isMmio l.params 1 = false ∧
      decode l.params.haltIgnoresUnused (l.mem.read 1 ++ l.mem.read 0 : Halfword) =
        .ok (.mov1 0 0) := by decide
theorem test_witness_StepKeepsInvariant : State.reset.Inv ∧ ∃ t, step State.reset = .next t :=
  ⟨by unfold State.Inv; decide, _, rfl⟩
theorem test_witness_RunKeepsUnwrittenBytes :
    ∃ t, RunsTo 2 ((base.withFetchWord 16 0x2001).setMem [(0x0101, 0x20)]) t := ⟨_, rfl⟩
/-- A launch under `SMC_POLICY = fault` that runs `MOV R0, #0` and then fetches 0x2101. -/
theorem test_witness_RunExecutesLaunchImage :
    let l : Launch := { Launch.atReset with
      mem := [(1, 0x20), (2, 0x01), (3, 0x21)], params := Params.specDefault }
    l.params.smc = .fault ∧ ∃ t, RunsTo 1 (State.launch l) t ∧ fetch t = .next 0x2101 :=
  ⟨rfl, _, rfl, rfl⟩

/-- The registers at the edges of both clauses (`AddRegisters`, `MoveRegister`). -/
theorem test_witness_AddRegisters :
    (14 : Reg) ≠ regPC ∧ (0 : Reg) ≠ regPC ∧ (15 : Reg) = regPC ∧ base.CanAdvance :=
  ⟨by decide, by decide, rfl, test_canAdvance.1⟩
theorem test_witness_MoveRegister :
    (14 : Reg) ≠ regPC ∧ (0 : Reg) ≠ regPC ∧ (15 : Reg) = regPC ∧ (strict base).CanAdvance :=
  ⟨by decide, by decide, rfl, test_canAdvance.2.1⟩
/-- Both alternatives: wrapping, and a sum of exactly 65532 under the other policy. -/
theorem test_witness_AddPCRelative :
    let s := ((strict base).setPc 0xFC00).setParams { Params.specDefault with wrap := .fault }
    base.CanAdvance ∧ base.params.wrap = .wrap ∧ s.CanAdvance ∧
      (s.pc &&& 0xFFFC).toNat + 4 * (255 : BitVec 8).toNat ≤ 65535 := by
  unfold State.CanAdvance
  decide
/-- For `BitwiseAndExclusiveOr`, `CompareLowRegisters`, `MoveImmediate`, `NegateRegister` and
`TestBits`, whose one hypothesis it is: at 0xFFFE under the policy to wrap, and elsewhere under the
policy to fault. -/
theorem test_witness_lowRegisterInstructions :
    (base.setPc 0xFFFE).CanAdvance ∧ (strict base).CanAdvance :=
  ⟨test_canAdvance.2.2, test_canAdvance.2.1⟩
/-- Shift amounts 0, 1, 15, 16 and 255, each from a register. -/
theorem test_witness_ArithmeticShiftRight :
    base.CanAdvance ∧
      [0x0100, 0x0001, 0x000F, 0x0010, 0x01FF].map
        (fun v => ((base.writeReg 1 v).readLow 1).toNat % 256) = [0, 1, 15, 16, 255] :=
  ⟨test_canAdvance.1, by decide⟩
theorem test_witness_CompareHighRegisters :
    base.CanAdvance ∧ 8 ≤ (8 : Reg).val ∧ 8 ≤ (15 : Reg).val ∧ ¬ 8 ≤ (7 : Reg).val :=
  ⟨test_canAdvance.1, by decide⟩
theorem test_witness_CompareHighOfLowRegistersFaults :
    (7 : Reg).val < 8 ∧ (0 : Reg).val < 8 := by decide

/-- The largest offsets that stay within 0..65535 (clauses 1 and 2), and one completing instruction
for each of the four forms, a destination other than the base for the loads. -/
theorem test_witness_EffectiveAddressIsBasePlusOffset :
    (base.params.wrap = .wrap ∧ (0xFF83 : Halfword).toNat + 4 * (31 : BitVec 5).toNat = 65535 ∧
      (0xFFE0 : Halfword).toNat + (31 : BitVec 5).toNat = 65535) ∧ (2 : LowReg) ≠ 1 ∧
      (∃ t, exec (.str 2 1 31) base = .next t) ∧ (∃ t, exec (.strb 2 1 31) base = .next t) ∧
      (∃ t, exec (.ldr 2 1 31) base = .next t) ∧ ∃ t, exec (.ldrb 2 1 31) base = .next t :=
  ⟨by decide, by decide, ⟨_, rfl⟩, ⟨_, rfl⟩, ⟨_, rfl⟩, ⟨_, rfl⟩⟩
/-- An aligned access outside the I/O region: for `LoadAlignedHalfword` and
`StoreAlignedHalfword`. -/
theorem test_witness_alignedHalfword :
    base.CanAdvance ∧ effectiveAddress base 1 (halfwordOffset 31) = .next 0x017C ∧
      (0x017C : Halfword).toNat % 4 = 0 ∧ isMmio base.params 0x017C = false ∧
      isMmio base.params (0x017C + 1) = false :=
  ⟨test_canAdvance.1, rfl, by decide, by decide, by decide⟩
/-- A misaligned access under each policy, for `LoadMisalignedHalfword` and
`StoreMisalignedHalfword`: under `draw` at 0x0102; under `fault` at 0x0101, and across the end of the
I/O region from a PC of 0xFFFE that may not advance. -/
theorem test_witness_misalignedHalfword :
    let s := base.writeReg 1 0x0102
    let t := (strict base).writeReg 1 0x0101
    let u := ((base.writeReg 1 0xF0FF).setPc 0xFFFE).setParams
      { Params.specDefault with mmioRegion := [{ first := 0xF000, last := 0xF0FF }] }
    (s.CanAdvance ∧ effectiveAddress s 1 (halfwordOffset 0) = .next 0x0102 ∧
      (0x0102 : Halfword).toNat % 4 ≠ 0 ∧ isMmio s.params 0x0102 = false ∧
      isMmio s.params (0x0102 + 1) = false ∧ s.params.misaligned = .draw) ∧
      (effectiveAddress t 1 (halfwordOffset 0) = .next 0x0101 ∧
        (0x0101 : Halfword).toNat % 4 ≠ 0 ∧ t.params.misaligned = .fault) ∧
      effectiveAddress u 1 (halfwordOffset 0) = .next 0xF0FF ∧
      (0xF0FF : Halfword).toNat % 4 ≠ 0 ∧ u.params.misaligned = .fault ∧ ¬ u.CanAdvance ∧
      isMmio u.params 0xF0FF ≠ isMmio u.params (0xF0FF + 1) :=
  ⟨⟨.inr rfl, rfl, by decide, by decide, by decide, rfl⟩, ⟨rfl, by decide, rfl⟩, rfl, by decide,
    rfl, by unfold State.CanAdvance; decide, by decide⟩
/-- A byte outside the I/O region and the region's first byte: for `LoadByteZeroExtends` and
`StoreByteWritesOneByte`. -/
theorem test_witness_byteAccess :
    let s := withIO base
    s.CanAdvance ∧ effectiveAddress s 1 (byteOffset 31) = .next 0x011F ∧
      isMmio s.params 0x011F = false ∧ effectiveAddress s 0 (byteOffset 0) = .next 0xF000 ∧
      isMmio s.params 0xF000 = true :=
  ⟨.inr rfl, rfl, by decide, rfl, by decide⟩
/-- `STR R2, [R1, #0]`, then each of the three loads, and a fetch. -/
theorem test_witness_HalfwordsAreLittleEndian :
    (∃ t, exec (.str 2 1 0) base = .next t ∧ (∃ u, exec (.ldrb 3 1 0) t = .next u) ∧
      (∃ u, exec (.ldrb 3 1 1) t = .next u) ∧ ∃ u, exec (.ldr 3 1 0) t = .next u) ∧
      base.readLow 1 = 0x0100 ∧ (0x0100 : Halfword).toNat % 4 = 0 ∧
      isMmio base.params 0x0100 = false ∧ isMmio base.params (0x0100 + 1) = false ∧
      ∃ w, fetch base = .next w :=
  ⟨⟨_, rfl, ⟨_, rfl⟩, ⟨_, rfl⟩, ⟨_, rfl⟩⟩, rfl, by decide, by decide, by decide, ⟨_, rfl⟩⟩
/-- The first address, result and target outside 0..65535, for each clause. -/
theorem test_witness_AddressOverflowFaults :
    let s := ((start 0xFF00 [(0, 0xFFF0), (1, 0xFFFF)] 0b0100).setParams
      { Params.specDefault with wrap := .fault })
    s.params.wrap = .fault ∧ 65535 < (s.readLow 0).toNat + 4 * (4 : BitVec 5).toNat ∧
      65535 < (s.readLow 1).toNat + (1 : BitVec 5).toNat ∧
      65535 < (s.pc &&& 0xFFFC).toNat + 4 * (64 : BitVec 8).toNat ∧
      conditionPassed .eq s.flags = true ∧
      65535 < ((s.setPc 0xFF02).pc.toNat : Int) + 2 * (127 : BitVec 8).toInt ∧
      ((s.setPc 0x00FE).pc.toNat : Int) + 2 * (0x80 : BitVec 8).toInt < 0 := by decide
/-- The first halfword of the I/O region: for `DeviceAnswersHalfwordLoads` and
`DeviceReceivesHalfwordStores`. -/
theorem test_witness_deviceHalfword :
    let s := withIO base
    s.CanAdvance ∧ effectiveAddress s 0 (halfwordOffset 0) = .next 0xF000 ∧
      (0xF000 : Halfword).toNat % 4 = 0 ∧ isMmio s.params 0xF000 = true ∧
      isMmio s.params (0xF000 + 1) = true :=
  ⟨.inr rfl, rfl, by decide, by decide, by decide⟩
theorem test_witness_MisalignedDeviceAccess :
    let s := withIO (base.writeReg 0 0xF0FE)
    s.CanAdvance ∧ effectiveAddress s 0 (halfwordOffset 0) = .next 0xF0FE ∧
      (0xF0FE : Halfword).toNat % 4 ≠ 0 ∧ s.params.misaligned = .draw ∧
      isMmio s.params 0xF0FE = true ∧ isMmio s.params (0xF0FE + 1) = true :=
  ⟨.inr rfl, rfl, by decide, rfl, by decide, by decide⟩
/-- Both alternatives: a misaligned access across the end of the region under `draw`, and an aligned
one across the start of a region at an odd address. -/
theorem test_witness_RegionEdgeIsRefused :
    let s := withIO (base.writeReg 0 0xF0FF)
    let t := (strict (base.writeReg 0 0xE000)).setParams
      { Params.specDefault with mmioRegion := [{ first := 0xE001, last := 0xE0FF }] }
    (effectiveAddress s 0 (halfwordOffset 0) = .next 0xF0FF ∧ s.params.misaligned = .draw ∧
      isMmio s.params 0xF0FF ≠ isMmio s.params (0xF0FF + 1)) ∧
      effectiveAddress t 0 (halfwordOffset 0) = .next 0xE000 ∧ (0xE000 : Halfword).toNat % 4 = 0 ∧
      isMmio t.params 0xE000 ≠ isMmio t.params (0xE000 + 1) :=
  ⟨⟨rfl, rfl, by decide⟩, rfl, by decide, by decide⟩

/-- Taken: wrapping, and a target of exactly 0 and of 65534 under the other policy; not taken. -/
theorem test_witness_ConditionalBranch :
    conditionPassed .eq base.flags = true ∧ base.params.wrap = .wrap ∧
      0 ≤ (base.pc.toNat : Int) + 2 * (0x80 : BitVec 8).toInt ∧
      ((base.setPc 0xFF00).pc.toNat : Int) + 2 * (0x7F : BitVec 8).toInt ≤ 65535 ∧
      conditionPassed .ne base.flags = false ∧ base.CanAdvance :=
  ⟨by decide, rfl, by decide, by decide, by decide, test_canAdvance.1⟩
/-- A completing compare of each form. -/
theorem test_witness_BranchesAfterCompare :
    (∃ t, exec (.cmp1 0 255) base = .next t) ∧ (∃ t, exec (.cmp2 0 1) base = .next t) ∧
      (∃ t, exec (.cmp3High 8 15) base = .next t) ∧ ∃ t, exec (.cmp3Low 0 8) base = .next t :=
  ⟨⟨_, rfl⟩, ⟨_, rfl⟩, ⟨_, rfl⟩, ⟨_, rfl⟩⟩
theorem test_witness_OnlyHaltHalts :
    ∃ t, step State.reset = .next t ∧ t.halted = true := ⟨_, rfl, rfl⟩

/-- Both cases of the conclusion, at 0xFFFE under the policy to fault. -/
theorem test_witness_TopOfAddressSpace :
    let s := strict (start 0xFFFE [] 0b0100)
    s.pc = 0xFFFE ∧ s.params.fallThrough = .fault ∧ (∃ t, exec .halt s = .next t) ∧
      ∃ t, exec (.beq 0x7F) s = .next t :=
  ⟨by decide, by decide, ⟨_, rfl⟩, ⟨_, rfl⟩⟩
theorem test_witness_FallThroughFaultIsComplete :
    ∃ c, exec (.mov1 0 1) (strict (start 0xFFFE [] 0b0000)) = .fault (.pcFallThrough c) := ⟨_, rfl⟩

/-- An instruction of each row of the flag table that leaves a flag alone. -/
theorem test_witness_FlagTable :
    (∃ t, exec (.and 0 1) base = .next t ∧ (flagsWritten (.and 0 1) base).c = false ∧
      (flagsWritten (.and 0 1) base).v = false) ∧
    (∃ t, exec (.asr 0 1) base = .next t ∧ (flagsWritten (.asr 0 1) base).c = false) ∧
    ∃ t, exec (.ldrb 2 1 0) base = .next t ∧ (flagsWritten (.ldrb 2 1 0) base).n = false ∧
      (flagsWritten (.ldrb 2 1 0) base).z = false :=
  ⟨⟨_, rfl, rfl, rfl⟩, ⟨_, rfl, by decide⟩, ⟨_, rfl, rfl, rfl⟩⟩
theorem test_witness_HighRegistersWrittenByFormat5Only :
    8 ≤ (8 : Reg).val ∧ (14 : Reg) ≠ regPC ∧ (∃ t, exec (.mov2 8 0) base = .next t) ∧
      ∀ rs, Instr.mov2 8 0 ≠ .add1 14 rs ∧ Instr.mov2 8 0 ≠ .mov2 14 rs :=
  ⟨by decide, by decide, ⟨_, rfl⟩, by decide⟩
theorem test_witness_HighRegistersInvisible :
    8 ≤ (8 : Reg).val ∧ 8 ≤ (14 : Reg).val ∧ (14 : Reg) ≠ regPC ∧
      isFormat5 (.ldr 0 1 0) = false := by decide
theorem test_witness_PCAdvancesByTwo :
    (∃ t, exec (.bne 0) base = .next t) ∧ Instr.bne 0 ≠ .halt ∧
      writesPC (.bne 0) base = false ∧ base.pc.toNat % 2 = 0 :=
  ⟨⟨_, rfl⟩, by decide, by decide, by decide⟩
theorem test_witness_OddPCOnlyFromFormat5 :
    let s := base.writeReg 0 0x0101
    s.pc.toNat % 2 = 0 ∧ ∃ t, exec (.mov2 regPC 0) s = .next t ∧ t.pc.toNat % 2 = 1 :=
  ⟨by decide, _, rfl, by decide⟩
/-- One word for each way to read the PC: MOV R0, PC; ADD R0, PC; ADD PC, R0; ADD PC, PC;
CMP R8, PC; CMP R0, PC; CMP PC, LP; CMP PC, PC; ADD R3, PC, #8; BEQ. -/
theorem test_witness_PCReadsOwnAddress :
    [0x4678, 0x4478, 0x4487, 0x44FF, 0x45F8, 0x4578, 0x45F7, 0x45FF, 0xA302, 0xD07F].map (fun w =>
      let s := base.withFetchWord 16 w
      (s.halted, decode s.params.haltIgnoresUnused (BitVec.ofNat 16 w),
        (match fetch s with
          | .next v => decide (v.toNat = w)
          | _ => false),
        (match step s with
          | .next _ => true
          | _ => false))) =
    [(false, .ok (.mov2 0 15), true, true), (false, .ok (.add1 0 15), true, true),
      (false, .ok (.add1 15 0), true, true), (false, .ok (.add1 15 15), true, true),
      (false, .ok (.cmp3High 8 15), true, true), (false, .ok (.cmp3Low 0 15), true, true),
      (false, .ok (.cmp3High 15 14), true, true), (false, .ok (.cmp3High 15 15), true, true),
      (false, .ok (.add2 3 2), true, true), (false, .ok (.beq 0x7F), true, true)] := by decide

theorem test_witness_EveryInstructionCompletes :
    (Instr.cmp3High 8 0).WellFormed ∧ NeverStops State.reset.params :=
  ⟨by decide, rfl, rfl, rfl, rfl⟩
/-- A well-formed instruction that meets each stop. -/
theorem test_witness_ExecutionStopsAreNamed :
    (Instr.ldr 0 1 0).WellFormed ∧
      faulted (exec (.ldr 0 1 0) (strict (base.writeReg 1 1))) .unpredictableAccess = true ∧
      faulted (exec (.ldr 0 1 1) ((base.writeReg 1 0xFFFF).setParams
        { base.params with wrap := .fault })) .addressWrap = true ∧
      (∃ c, exec (.tst 0 1) (strict (base.setPc 0xFFFE)) = .fault (.pcFallThrough c)) ∧
      refused (exec (.str 0 1 0) (withIO (base.writeReg 1 0xF0FF))) .mmioStraddle = true :=
  ⟨by decide, by decide, by decide, ⟨_, rfl⟩, by decide⟩

end Sys2Proof.Tests
end

/-! PROOFS. The step taken apart, the flags of a subtraction, and what each instruction that can read
the PC leaves in its destination. -/

namespace Sys2Proof.Machine

/-! ### The step -/

/-- A step executes the instruction that the word at the PC decodes to. -/
theorem step_eq_exec {s : State} {w : Halfword} {i : Instr} (hrun : s.halted = false)
    (hfetch : fetch s = .next w) (hdecode : decode s.params.haltIgnoresUnused w = .ok i) :
    step s = exec i s := by
  simp [step, hrun, hfetch, (decodeFetched_eq_next s w i).mpr hdecode]

/-! ### Sums and differences -/

/-- The result of `AddWithFlags` is the sum modulo 2^16 (40_data_processing.md R75). -/
@[simp] theorem addWithFlags_result (a b : Halfword) : (addWithFlags a b).result = a + b := by
  simp [addWithFlags, BitVec.ofNat_add]

/-- The result of `SubWithFlags` is the difference modulo 2^16 (40_data_processing.md R76). -/
@[simp] theorem subWithFlags_result (a b : Halfword) : (subWithFlags a b).result = a - b := by
  apply BitVec.eq_of_toInt_eq
  rw [subWithFlags, BitVec.toInt_ofInt, BitVec.toInt_sub, BitVec.toInt_eq_toNat_bmod a,
    BitVec.toInt_eq_toNat_bmod b, Int.bmod_sub_bmod, Int.sub_bmod_bmod]

/-- The flags of `SubWithFlags` are the integer definitions of 10_state.md R19 to R22. -/
theorem flagsOfDifference_subWithFlags (a b : Halfword) :
    FlagsOfDifference a b (subWithFlags a b).flags := by
  refine ⟨?n, ?z, ?c, ?v⟩
  case n => simp [AluOut.flags]
  case z => simp [AluOut.flags, BitVec.sub_eq_iff_eq_add]
  case c => simp [AluOut.flags, subWithFlags]
  case v => simp [AluOut.flags, subWithFlags, signedOverflow]

/-! ### Offsets -/

/-- The offset of `ADD`(2) is four times its immediate (30_encoding.md R60). -/
theorem pcOffset_eq (imm8 : BitVec 8) : pcOffset imm8 = BitVec.ofNat 16 (4 * imm8.toNat) := by
  apply BitVec.eq_of_toNat_eq
  simp [pcOffset, BitVec.toNat_shiftLeft, Nat.shiftLeft_eq, Nat.mul_comm]

/-- The offset of a branch is twice its immediate, sign extended (30_encoding.md R60). -/
theorem branchOffset_toInt (offset8 : BitVec 8) :
    (branchOffset offset8).toInt = 2 * offset8.toInt := by
  revert offset8
  decide +kernel

/-- The target of a taken branch, narrowed, is the PC plus the offset (42_branch.md R110). -/
theorem ofInt_toNat_add_branchOffset (pc : Halfword) (offset8 : BitVec 8) :
    BitVec.ofInt 16 (pc.toNat + (branchOffset offset8).toInt) =
      pc + BitVec.ofInt 16 (2 * offset8.toInt) := by
  rw [branchOffset_toInt, BitVec.ofInt_add, BitVec.ofInt_natCast, BitVec.ofNat_toNat,
    BitVec.setWidth_eq]

/-! ### The end of an instruction -/

/-- The advance leaves every register but the PC alone. -/
theorem advance_readReg {s t : State} (h : advance s = .next t) {r : Reg} (hr : r ≠ regPC) :
    t.readReg r = s.readReg r := by
  obtain ⟨-, rfl⟩ := (advance_eq_next s t).mp h
  exact readReg_setPc_of_ne s _ r hr

/-- The advance leaves every low register alone. -/
theorem advance_readLow {s t : State} (h : advance s = .next t) (r : LowReg) :
    t.readLow r = s.readLow r :=
  advance_readReg h (toReg_ne_regPC r)

/-- The advance leaves the flags alone. -/
theorem advance_flags {s t : State} (h : advance s = .next t) : t.flags = s.flags := by
  obtain ⟨-, rfl⟩ := (advance_eq_next s t).mp h
  rfl

/-- The end of an instruction leaves its destination as written, the PC included (10_state.md R15). -/
theorem advanceUnlessPC_readReg_destination {d : Reg} {s t : State}
    (h : advanceUnlessPC d s = .next t) : t.readReg d = s.readReg d := by
  rcases (advanceUnlessPC_eq_next d s t).mp h with ⟨-, rfl⟩ | ⟨hd, hadv⟩
  · rfl
  · exact advance_readReg hadv hd

/-! ### The instructions that can read the PC -/

/-- `MOV`(2) leaves in its destination what its source read as (40_data_processing.md R89). -/
theorem exec_mov2_readReg {rd rs : Reg} {s t : State} (h : exec (.mov2 rd rs) s = .next t) :
    t.readReg rd = s.readReg rs := by
  have hd : t.readReg rd = _ := advanceUnlessPC_readReg_destination h
  rw [hd, readReg_setFlags, readReg_writeReg_same]

/-- `ADD`(1) leaves in its destination the sum of what its operands read as
(40_data_processing.md R80). -/
theorem exec_add1_readReg {rd rs : Reg} {s t : State} (h : exec (.add1 rd rs) s = .next t) :
    t.readReg rd = s.readReg rd + s.readReg rs := by
  have hd : t.readReg rd = _ := advanceUnlessPC_readReg_destination h
  rw [hd, readReg_setFlags, readReg_writeReg_same, addWithFlags_result]

/-- `CMP`(3) that completes leaves the flags of the difference of what its operands read as
(40_data_processing.md R86). -/
theorem compareHigh_flags {rd rs : Reg} {s t : State} (h : compareHigh rd rs s = .next t) :
    FlagsOfDifference (s.readReg rd) (s.readReg rs) t.flags := by
  unfold compareHigh at h
  split at h
  · cases h
  · rw [advance_flags h, State.setFlags_flags]
    exact flagsOfDifference_subWithFlags _ _

/-- `CMP`(3), the row with H1 = 1, compares its two registers. -/
theorem exec_cmp3High_flags {rd rs : Reg} {s t : State} (h : exec (.cmp3High rd rs) s = .next t) :
    FlagsOfDifference (s.readReg rd) (s.readReg rs) t.flags := by
  change compareHigh rd rs s = .next t at h
  exact compareHigh_flags h

/-- `CMP`(3), the row with H1 = 0, compares a low register with any register. -/
theorem exec_cmp3Low_flags {rd : LowReg} {rs : Reg} {s t : State}
    (h : exec (.cmp3Low rd rs) s = .next t) :
    FlagsOfDifference (s.readReg rd.toReg) (s.readReg rs) t.flags := by
  change compareHigh rd.toReg rs s = .next t at h
  exact compareHigh_flags h

/-- `ADD`(2) that completes leaves in its destination the PC with bits 1 and 0 cleared, plus four
times the immediate (40_data_processing.md R81). -/
theorem exec_add2_readLow {rd : LowReg} {imm8 : BitVec 8} {s t : State}
    (h : exec (.add2 rd imm8) s = .next t) :
    t.readLow rd = (s.pc &&& 0xFFFC) + BitVec.ofNat 16 (4 * imm8.toNat) := by
  obtain ⟨a, haddr, hadv⟩ := (andThen_eq_next _ _ t).mp h
  obtain ⟨-, rfl⟩ := (wrapAddress_eq_next _ _ a).mp haddr
  rw [advance_readLow hadv, readLow_writeLow_same, ofInt_toNat_add, pcOffset_eq]

/-- The branch instruction of a condition is the branch under that condition (42_branch.md R110). -/
theorem exec_branchOf (c : Cond) (offset8 : BitVec 8) (s : State) :
    exec (branchOf c offset8) s = branchIf c offset8 s := by
  cases c <;> rfl

/-- A taken branch goes to the PC plus twice its immediate (42_branch.md R110). -/
theorem branchIf_taken_pc {c : Cond} {offset8 : BitVec 8} {s t : State}
    (htaken : conditionPassed c s.flags = true) (h : branchIf c offset8 s = .next t) :
    t.pc = s.pc + BitVec.ofInt 16 (2 * offset8.toInt) := by
  rcases (branchIf_eq_next c offset8 s t).mp h with ⟨-, target, haddr, rfl⟩ | ⟨hnot, -⟩
  · obtain ⟨-, rfl⟩ := (wrapAddress_eq_next _ _ target).mp haddr
    exact ofInt_toNat_add_branchOffset s.pc offset8
  · rw [htaken] at hnot
    cases hnot

/-! ### The statement -/

/-- Settles O58: the step is `exec` in the state of the fetch, so each instruction's lemma speaks of
that state's PC wherever register number 15 is read. -/
theorem pcReadsOwnAddress : Obligations.PCReadsOwnAddress := by
  intro s t w i hrun hfetch hdecode hstep
  rw [step_eq_exec hrun hfetch hdecode] at hstep
  refine ⟨?movPC, ?addPC, ?addToPC, ?addPCToPC, ?cmpWithPC, ?cmpOfPC, ?cmpPCWithPC, ?add2, ?branch⟩
  case movPC =>
    rintro rd rfl
    simpa only [readReg_regPC] using exec_mov2_readReg hstep
  case addPC =>
    rintro rd - rfl
    simpa only [readReg_regPC] using exec_add1_readReg hstep
  case addToPC =>
    rintro rs - rfl
    simpa only [readReg_regPC] using exec_add1_readReg hstep
  case addPCToPC =>
    rintro rfl
    simpa only [readReg_regPC] using exec_add1_readReg hstep
  case cmpWithPC =>
    rintro rd (⟨rfl, -⟩ | ⟨q, rfl, rfl⟩)
    · simpa only [readReg_regPC] using exec_cmp3High_flags hstep
    · simpa only [readReg_regPC] using exec_cmp3Low_flags hstep
  case cmpOfPC =>
    rintro rs - rfl
    simpa only [readReg_regPC] using exec_cmp3High_flags hstep
  case cmpPCWithPC =>
    rintro rfl
    simpa only [readReg_regPC] using exec_cmp3High_flags hstep
  case add2 =>
    rintro rd imm8 rfl
    exact exec_add2_readLow hstep
  case branch =>
    rintro c offset8 rfl htaken
    rw [exec_branchOf] at hstep
    exact branchIf_taken_pc htaken hstep

end Sys2Proof.Machine

/-! PROOFS. The rows of the opcode map: each fixes the high bits of a word and leaves the low ones
free, so the decoder's fields of the fixed bits are those of the row's match. -/

namespace Sys2Proof

/-! ### A row of the opcode map fixes the high bits -/

/-- The word has the fixed bits of the instruction's row (30_encoding.md R62). -/
def InRow (w : Halfword) (j : Instr) : Prop := w &&& (opcodeRow j).1 = (opcodeRow j).2

/-- How many low bits the row of an instruction leaves to its operands (30_encoding.md R52 to
R58). -/
def Instr.freeBits : Instr → Nat
  | .halt => 0
  | .mov1 _ _ | .cmp1 _ _ | .add2 _ _ | .str _ _ _ | .ldr _ _ _ | .strb _ _ _ | .ldrb _ _ _ => 11
  | .and _ _ | .eor _ _ | .asr _ _ | .tst _ _ | .neg _ _ | .cmp2 _ _ | .cmp3Low _ _ => 6
  | .cmp3High _ _ => 7
  | .add1 _ _ | .mov2 _ _ => 8
  | .beq _ | .bne _ | .bcs _ | .bcc _ | .bmi _ | .bpl _ | .bvs _ | .bvc _
  | .bhi _ | .bls _ | .bge _ | .blt _ | .bgt _ | .ble _ => 8

/-- The bits above the free ones, as a row's match gives them. -/
def Instr.fixedBits (j : Instr) : Nat := (opcodeRow j).2.toNat / 2 ^ j.freeBits

/-- The mask of a row keeps exactly the bits that are not free. -/
theorem opcodeRow_mask (j : Instr) : (opcodeRow j).1 = BitVec.allOnes 16 <<< j.freeBits := by
  cases j <;> simp only [opcodeRow, Instr.freeBits] <;> decide

/-- The match of a row has zeros for the free bits. -/
theorem opcodeRow_match_toNat (j : Instr) :
    (opcodeRow j).2.toNat = j.fixedBits * 2 ^ j.freeBits := by
  cases j <;> simp [opcodeRow, Instr.fixedBits, Instr.freeBits]

/-- A mask of high bits clears the low bits. -/
theorem toNat_and_allOnes_shiftLeft (w : Halfword) (k : Nat) :
    (w &&& BitVec.allOnes 16 <<< k).toNat = w.toNat / 2 ^ k * 2 ^ k := by
  rw [← BitVec.shiftLeft_ushiftRight, BitVec.toNat_shiftLeft, BitVec.toNat_ushiftRight,
    Nat.shiftLeft_eq, Nat.shiftRight_eq_div_pow]
  exact Nat.mod_eq_of_lt (lt_of_le_of_lt (Nat.div_mul_le_self _ _) w.isLt)

/-- A word is in a row exactly when its high bits are the fixed bits of the row. -/
theorem inRow_iff (w : Halfword) (j : Instr) :
    InRow w j ↔ w.toNat / 2 ^ j.freeBits = j.fixedBits := by
  rw [InRow, opcodeRow_mask, ← BitVec.toNat_inj, toNat_and_allOnes_shiftLeft,
    opcodeRow_match_toNat]
  exact Nat.mul_left_inj (Nat.two_pow_pos _).ne'

/-- A field of a word that lies in the fixed bits of its row is that field of the row. -/
theorem InRow.field_eq {w : Halfword} {j : Instr} (h : InRow w j) (lo len : Nat)
    (hlo : j.freeBits ≤ lo) : field w lo len = j.fixedBits / 2 ^ (lo - j.freeBits) % 2 ^ len := by
  rw [← (inRow_iff w j).mp h, Nat.div_div_eq_div_mul, ← pow_add, Nat.add_sub_cancel' hlo, field]

/-! ### From the row to the decoded instruction -/

/-- The instruction of the same row whose operands are the fields of the word (30_encoding.md R52
to R58). -/
def Instr.withFieldsOf (w : Halfword) : Instr → Instr
  | .halt => .halt
  | .mov1 _ _ => .mov1 (lowField w 8) (imm8Field w)
  | .cmp1 _ _ => .cmp1 (lowField w 8) (imm8Field w)
  | .and _ _ => .and (lowField w 0) (lowField w 3)
  | .eor _ _ => .eor (lowField w 0) (lowField w 3)
  | .asr _ _ => .asr (lowField w 0) (lowField w 3)
  | .tst _ _ => .tst (lowField w 0) (lowField w 3)
  | .neg _ _ => .neg (lowField w 0) (lowField w 3)
  | .cmp2 _ _ => .cmp2 (lowField w 0) (lowField w 3)
  | .add1 _ _ => .add1 (regField w 7 0) (regField w 6 3)
  | .cmp3High _ _ => .cmp3High (regField w 7 0) (regField w 6 3)
  | .cmp3Low _ _ => .cmp3Low (lowField w 0) (regField w 6 3)
  | .mov2 _ _ => .mov2 (regField w 7 0) (regField w 6 3)
  | .str _ _ _ => .str (lowField w 0) (lowField w 3) (imm5Field w)
  | .ldr _ _ _ => .ldr (lowField w 0) (lowField w 3) (imm5Field w)
  | .strb _ _ _ => .strb (lowField w 0) (lowField w 3) (imm5Field w)
  | .ldrb _ _ _ => .ldrb (lowField w 0) (lowField w 3) (imm5Field w)
  | .add2 _ _ => .add2 (lowField w 8) (imm8Field w)
  | .beq _ => .beq (imm8Field w)
  | .bne _ => .bne (imm8Field w)
  | .bcs _ => .bcs (imm8Field w)
  | .bcc _ => .bcc (imm8Field w)
  | .bmi _ => .bmi (imm8Field w)
  | .bpl _ => .bpl (imm8Field w)
  | .bvs _ => .bvs (imm8Field w)
  | .bvc _ => .bvc (imm8Field w)
  | .bhi _ => .bhi (imm8Field w)
  | .bls _ => .bls (imm8Field w)
  | .bge _ => .bge (imm8Field w)
  | .blt _ => .blt (imm8Field w)
  | .bgt _ => .bgt (imm8Field w)
  | .ble _ => .ble (imm8Field w)

@[simp] theorem opcodeRow_withFieldsOf (w : Halfword) (j : Instr) :
    opcodeRow (j.withFieldsOf w) = opcodeRow j := by
  cases j <;> rfl

/-- A word in a row decodes to the instruction of that row whose operands are its fields. -/
theorem decode_of_inRow (b : Bool) {w : Halfword} {j : Instr} (h : InRow w j) :
    decode b w = .ok (j.withFieldsOf w) := by
  have hfield := h.field_eq
  cases j <;> simp [Instr.fixedBits, Instr.freeBits, opcodeRow] at hfield
  case halt => simp [decode, decodeFormat0, Instr.withFieldsOf, hfield]
  case mov1 | cmp1 => simp [decode, decodeFormat3, Instr.withFieldsOf, hfield]
  case and | eor | asr | tst | neg | cmp2 =>
    simp [decode, decodeFormat4, Instr.withFieldsOf, hfield]
  case add1 | cmp3High | cmp3Low | mov2 =>
    simp [decode, decodeFormat5, Instr.withFieldsOf, hfield]
  case str | ldr | strb | ldrb => simp [decode, decodeFormat9, Instr.withFieldsOf, hfield]
  case add2 => simp [decode, decodeFormat12, Instr.withFieldsOf, hfield]
  case beq | bne | bcs | bcc | bmi | bpl | bvs | bvc | bhi | bls | bge | blt | bgt | ble =>
    simp [decode, decodeFormat16, Instr.withFieldsOf, hfield]

/-! ### From the decoded instruction to the row -/

/-- Everything the decoder can answer as an instruction: the high bits select the format, and the
format answers it (30_encoding.md R51). -/
theorem decode_eq_ok {b : Bool} {w : Halfword} {i : Instr} (h : decode b w = .ok i) :
    (field w 13 3 = 0 ∧ decodeFormat0 b w = .ok i) ∨
    (field w 13 3 = 1 ∧ decodeFormat3 w = .ok i) ∨
    (field w 13 3 = 2 ∧ field w 10 3 = 0 ∧ decodeFormat4 w = .ok i) ∨
    (field w 13 3 = 2 ∧ field w 10 3 = 1 ∧ decodeFormat5 w = .ok i) ∨
    (field w 13 3 = 3 ∧ decodeFormat9 w = i) ∨
    (field w 13 3 = 5 ∧ field w 12 1 = 0 ∧ decodeFormat12 w = .ok i) ∨
    (field w 13 3 = 6 ∧ field w 12 1 = 1 ∧ decodeFormat16 w = .ok i) := by
  unfold decode at h
  split at h
  case h_3 | h_5 | h_6 => split at h <;> simp_all
  all_goals simp_all

/-- Format 0 answers `HALT`, by default for the word 0 only (30_encoding.md R52, R64). -/
theorem decodeFormat0_inRow {w : Halfword} {i : Instr} (hfmt : field w 13 3 = 0)
    (h : decodeFormat0 false w = .ok i) : InRow w i := by
  have hw := w.isLt
  simp only [field] at hfmt
  unfold decodeFormat0 field at h
  split at h
  case isTrue hop =>
    split at h <;> cases h
    simp_all [inRow_iff, Instr.freeBits, Instr.fixedBits, opcodeRow]
    omega
  case isFalse => cases h

/-- Format 3 answers an instruction in whose row the word is (30_encoding.md R53). -/
theorem decodeFormat3_inRow {w : Halfword} {i : Instr} (hfmt : field w 13 3 = 1)
    (h : decodeFormat3 w = .ok i) : InRow w i := by
  have hw := w.isLt
  simp only [field] at hfmt
  unfold decodeFormat3 field at h
  split at h <;> cases h
  all_goals
    simp [inRow_iff, Instr.freeBits, Instr.fixedBits, opcodeRow]
    omega

/-- Format 4 answers an instruction in whose row the word is (30_encoding.md R54). -/
theorem decodeFormat4_inRow {w : Halfword} {i : Instr} (hfmt : field w 13 3 = 2)
    (hsub : field w 10 3 = 0) (h : decodeFormat4 w = .ok i) : InRow w i := by
  have hw := w.isLt
  simp only [field] at hfmt hsub
  unfold decodeFormat4 field at h
  split at h <;> cases h
  all_goals
    simp [inRow_iff, Instr.freeBits, Instr.fixedBits, opcodeRow]
    omega

/-- Format 5 answers an instruction in whose row the word is (30_encoding.md R55). -/
theorem decodeFormat5_inRow {w : Halfword} {i : Instr} (hfmt : field w 13 3 = 2)
    (hsub : field w 10 3 = 1) (h : decodeFormat5 w = .ok i) : InRow w i := by
  have hw := w.isLt
  simp only [field] at hfmt hsub
  unfold decodeFormat5 field at h
  repeat' split at h
  all_goals cases h
  all_goals
    simp [inRow_iff, Instr.freeBits, Instr.fixedBits, opcodeRow]
    omega

/-- A field of one bit is 0 or 1. -/
theorem field_one_bit (w : Halfword) (lo : Nat) : field w lo 1 = 0 ∨ field w lo 1 = 1 :=
  Nat.mod_two_eq_zero_or_one _

/-- Format 9 answers an instruction in whose row the word is (30_encoding.md R56). -/
theorem decodeFormat9_inRow {w : Halfword} (hfmt : field w 13 3 = 3) :
    InRow w (decodeFormat9 w) := by
  have hw := w.isLt
  unfold decodeFormat9
  rcases field_one_bit w 12 with hB | hB <;> rcases field_one_bit w 11 with hL | hL
  all_goals
    rw [hB, hL]
    simp only [field] at hfmt hB hL
    simp [inRow_iff, Instr.freeBits, Instr.fixedBits, opcodeRow]
    omega

/-- Format 12 answers `ADD`(2) for a word in its row (30_encoding.md R57). -/
theorem decodeFormat12_inRow {w : Halfword} {i : Instr} (hfmt : field w 13 3 = 5)
    (hsub : field w 12 1 = 0) (h : decodeFormat12 w = .ok i) : InRow w i := by
  have hw := w.isLt
  simp only [field] at hfmt hsub
  unfold decodeFormat12 field at h
  split at h <;> cases h
  simp [inRow_iff, Instr.freeBits, Instr.fixedBits, opcodeRow]
  omega

/-- Format 16 answers an instruction in whose row the word is (30_encoding.md R58). -/
theorem decodeFormat16_inRow {w : Halfword} {i : Instr} (hfmt : field w 13 3 = 6)
    (hsub : field w 12 1 = 1) (h : decodeFormat16 w = .ok i) : InRow w i := by
  have hw := w.isLt
  simp only [field] at hfmt hsub
  unfold decodeFormat16 field at h
  split at h <;> cases h
  all_goals
    simp [inRow_iff, Instr.freeBits, Instr.fixedBits, opcodeRow]
    omega

/-- A word that decodes is in the row of the instruction it decodes to. -/
theorem inRow_of_decode {w : Halfword} {i : Instr} (h : decode false w = .ok i) : InRow w i := by
  rcases decode_eq_ok h with ⟨hfmt, h0⟩ | ⟨hfmt, h3⟩ | ⟨hfmt, hsub, h4⟩ | ⟨hfmt, hsub, h5⟩ |
    ⟨hfmt, rfl⟩ | ⟨hfmt, hsub, h12⟩ | ⟨hfmt, hsub, h16⟩
  · exact decodeFormat0_inRow hfmt h0
  · exact decodeFormat3_inRow hfmt h3
  · exact decodeFormat4_inRow hfmt hsub h4
  · exact decodeFormat5_inRow hfmt hsub h5
  · exact decodeFormat9_inRow hfmt
  · exact decodeFormat12_inRow hfmt hsub h12
  · exact decodeFormat16_inRow hfmt hsub h16

/-! ### The opcode map -/

/-- Settles O3: a word in a row decodes to that row's instruction with the word's own fields, and a
word that decodes is in the row of its instruction. -/
theorem decodeMatchesOpcodeMap : Obligations.DecodeMatchesOpcodeMap := by
  intro w j
  constructor
  · intro h
    exact ⟨j.withFieldsOf w, decode_of_inRow false h, opcodeRow_withFieldsOf w j⟩
  · rintro ⟨i, hdecode, hrow⟩
    rw [← hrow]
    exact inRow_of_decode hdecode

end Sys2Proof

/-! PROOFS. What the immediate fields stand for. -/

namespace Sys2Proof.Machine

/-! ### Zero-extended immediates -/

@[simp] theorem immediate8_toNat (imm8 : BitVec 8) : (immediate8 imm8).toNat = imm8.toNat :=
  BitVec.toNat_setWidth_of_le (by decide)

@[simp] theorem byteOffset_toNat (imm5 : BitVec 5) : (byteOffset imm5).toNat = imm5.toNat :=
  BitVec.toNat_setWidth_of_le (by decide)

/-- The offset of `ADD`(2) is never narrowed: 4 * 255 is below 2^16. -/
theorem pcOffset_toNat (imm8 : BitVec 8) : (pcOffset imm8).toNat = 4 * imm8.toNat := by
  have hlt := imm8.isLt
  rw [pcOffset_eq, BitVec.toNat_ofNat]
  exact Nat.mod_eq_of_lt (by omega)

/-- The offset of `LDR` and `STR` is never narrowed: 4 * 31 is below 2^16. -/
theorem halfwordOffset_toNat (imm5 : BitVec 5) :
    (halfwordOffset imm5).toNat = 4 * imm5.toNat := by
  have hlt := imm5.isLt
  rw [halfwordOffset, BitVec.toNat_shiftLeft, BitVec.toNat_setWidth_of_le (by decide),
    Nat.shiftLeft_eq]
  omega

/-- Settles O6, one lemma for each immediate of 30_encoding.md R60. -/
theorem immediateOperandValues : Obligations.ImmediateOperandValues :=
  ⟨fun imm8 => ⟨immediate8_toNat imm8, pcOffset_toNat imm8, branchOffset_toInt imm8⟩,
    fun imm5 => ⟨byteOffset_toNat imm5, halfwordOffset_toNat imm5⟩⟩

end Sys2Proof.Machine

/-! PROOFS. The state a completed instruction leaves, and what it keeps. -/

namespace Sys2Proof.Machine

/-! ### The state a completed instruction leaves -/

/-- The state with the flags and the PC an instruction ends with, all else as it was. -/
def State.endAt (s : State) (f : Flags) (a : Halfword) : State := (s.setFlags f).setPc a

@[simp] theorem State.endAt_pc (s : State) (f : Flags) (a : Halfword) : (s.endAt f a).pc = a := rfl

@[simp] theorem State.endAt_flags (s : State) (f : Flags) (a : Halfword) :
    (s.endAt f a).flags = f := rfl

theorem readReg_endAt (s : State) (f : Flags) (a : Halfword) {r : Reg} (hr : r ≠ regPC) :
    (s.endAt f a).readReg r = s.readReg r :=
  readReg_setPc_of_ne (s.setFlags f) a r hr

theorem readReg_writeReg_endAt (s : State) (v : Halfword) (f : Flags) (a : Halfword) {r : Reg}
    (hr : r ≠ regPC) : ((s.writeReg r v).endAt f a).readReg r = v := by
  rw [readReg_endAt _ f a hr, readReg_writeReg_same]

@[simp] theorem readLow_writeLow_endAt (s : State) (r : LowReg) (v : Halfword) (f : Flags)
    (a : Halfword) : ((s.writeLow r v).endAt f a).readLow r = v :=
  readReg_writeReg_endAt s v f a (toReg_ne_regPC r)

/-- What an instruction that only sets flags and the PC keeps. -/
theorem frame_endAt (s : State) (f : Flags) (a : Halfword) :
    KeepsRegs s (s.endAt f a) ∧ KeepsMemory s (s.endAt f a) ∧ KeepsRest s (s.endAt f a) :=
  ⟨fun _ hr => readReg_endAt s f a hr, fun _ => rfl, rfl, rfl, rfl, rfl, rfl⟩

/-- What an instruction that also writes a register keeps. -/
theorem frame_writeReg_endAt (s : State) (r : Reg) (v : Halfword) (f : Flags) (a : Halfword) :
    KeepsRegsBut r s ((s.writeReg r v).endAt f a) ∧
      KeepsMemory s ((s.writeReg r v).endAt f a) ∧ KeepsRest s ((s.writeReg r v).endAt f a) := by
  refine ⟨fun q hqr hq => ?regs, fun b => ?mem, ?rest⟩
  case regs => rw [readReg_endAt _ f a hq, readReg_writeReg_other s r q v hqr]
  case mem => exact congrArg (Memory.read · b) (writeReg_mem s r v)
  case rest =>
    exact ⟨writeReg_halted s r v, writeReg_params s r v, writeReg_deviceEvents s r v,
      writeReg_written s r v, writeReg_draws s r v⟩

/-! ### The advance completes -/

/-- Writing a register other than the PC does not take the advance away. -/
theorem State.CanAdvance.writeReg {s : State} (hadv : s.CanAdvance) {r : Reg} (hr : r ≠ regPC)
    (v : Halfword) : (s.writeReg r v).CanAdvance := by
  rwa [State.CanAdvance, writeReg_pc s r v hr, writeReg_params]

theorem advance_of_canAdvance {s : State} (hadv : s.CanAdvance) :
    advance s = .next (s.setPc (s.pc + 2)) :=
  (advance_eq_next s _).mpr ⟨fun hpc => hadv.resolve_left (not_not_intro hpc), rfl⟩

theorem advance_setFlags {s : State} (hadv : s.CanAdvance) (f : Flags) :
    advance (s.setFlags f) = .next (s.endAt f (s.pc + 2)) :=
  advance_of_canAdvance (s := s.setFlags f) hadv

theorem advance_writeReg_setFlags {s : State} (hadv : s.CanAdvance) {r : Reg} (hr : r ≠ regPC)
    (v : Halfword) (f : Flags) :
    advance ((s.writeReg r v).setFlags f) = .next ((s.writeReg r v).endAt f (s.pc + 2)) := by
  rw [advance_setFlags (hadv.writeReg hr v), writeReg_pc s r v hr]

theorem advance_writeLow_setFlags {s : State} (hadv : s.CanAdvance) (r : LowReg) (v : Halfword)
    (f : Flags) :
    advance ((s.writeLow r v).setFlags f) = .next ((s.writeLow r v).endAt f (s.pc + 2)) :=
  advance_writeReg_setFlags hadv (toReg_ne_regPC r) v f

theorem advance_writeLow {s : State} (hadv : s.CanAdvance) (r : LowReg) (v : Halfword) :
    advance (s.writeLow r v) = .next ((s.writeLow r v).endAt s.flags (s.pc + 2)) := by
  rw [← advance_writeLow_setFlags hadv, ← writeLow_flags s r v]
  rfl

end Sys2Proof.Machine

/-! PROOFS. The data processing instructions: their results, their flags, and what each of them
changes and keeps. -/

namespace Sys2Proof.Machine

/-! ### Flags -/

/-- `SetNZ` sets N and Z from the value and keeps C and V (40_data_processing.md R77). -/
theorem flagsNZOf_setNZ (v : Halfword) (old : Flags) : FlagsNZOf v old (old.setNZ v) := by
  refine ⟨rfl, ?z, rfl, rfl⟩
  case z => simp [Flags.setNZ]

/-- The flags of `AddWithFlags` are the integer definitions of 10_state.md R19 to R22. -/
theorem flagsOfSum_addWithFlags (a b : Halfword) : FlagsOfSum a b (addWithFlags a b).flags := by
  refine ⟨?n, ?z, ?c, ?v⟩
  case n => simp [AluOut.flags]
  case z => simp [AluOut.flags]
  case c => simp [AluOut.flags, addWithFlags]
  case v => simp [AluOut.flags, addWithFlags, signedOverflow]

/-- `0 - b` has no borrow only for 0 (40_data_processing.md R90). -/
theorem FlagsOfDifference.carry_of_zero_sub {b : Halfword} {f : Flags}
    (h : FlagsOfDifference 0 b f) : f.c = true ↔ b = 0 := by
  obtain ⟨-, -, hc, -⟩ := h
  rw [hc, BitVec.toNat_eq]
  exact Nat.le_zero

/-- `0 - b` overflows only for -32768, which has no positive counterpart
(40_data_processing.md R90). -/
theorem FlagsOfDifference.overflow_of_zero_sub {b : Halfword} {f : Flags}
    (h : FlagsOfDifference 0 b f) : f.v = true ↔ b = 0x8000 := by
  obtain ⟨-, -, -, hv⟩ := h
  have hlt : b.toInt < 2 ^ 15 := BitVec.toInt_lt
  have hle : -2 ^ 15 ≤ b.toInt := BitVec.le_toInt b
  rw [hv, ← BitVec.toInt_inj]
  change 0 - b.toInt < -32768 ∨ 32767 < 0 - b.toInt ↔ b.toInt = -32768
  omega

/-! ### Operands -/

/-- The immediate of `MOV`(1) and `CMP`(1) is zero-extended (30_encoding.md R60). -/
theorem immediate8_eq (imm8 : BitVec 8) : immediate8 imm8 = BitVec.ofNat 16 imm8.toNat := by
  apply BitVec.eq_of_toNat_eq
  rw [immediate8_toNat, BitVec.toNat_ofNat, Nat.mod_eq_of_lt (by omega)]

/-- A zero-extended byte has no sign bit: "N Flag = 0" (40_data_processing.md R88). -/
theorem immediate8_getLsbD_fifteen (imm8 : BitVec 8) : (immediate8 imm8).getLsbD 15 = false := by
  rw [immediate8, BitVec.getLsbD_setWidth]
  simp

theorem immediate8_eq_zero_iff (imm8 : BitVec 8) : immediate8 imm8 = 0 ↔ imm8 = 0 := by
  rw [BitVec.toNat_eq, immediate8_toNat, BitVec.toNat_eq]
  rfl

/-- The base of `ADD`(2) is word aligned (40_data_processing.md R81). -/
theorem alignedPC_toNat (pc : Halfword) : (pc &&& 0xFFFC).toNat = pc.toNat / 4 * 4 :=
  toNat_and_allOnes_shiftLeft pc 2

/-- A multiple of 4 plus 4 times the immediate, narrowed, is a multiple of 4: 4 divides 2^16. -/
theorem alignedPC_add_toNat_mod_four (pc : Halfword) (k : Nat) :
    ((pc &&& 0xFFFC) + BitVec.ofNat 16 (4 * k)).toNat % 4 = 0 := by
  rw [BitVec.toNat_add, alignedPC_toNat, BitVec.toNat_ofNat]
  omega

/-! ### The shift of `ASR` -/

/-- The shift amount is the low byte of the register (40_data_processing.md R83). -/
theorem shiftAmount_eq (v : Halfword) : shiftAmount v = v.toNat % 256 := by
  rw [shiftAmount, BitVec.toNat_setWidth]

theorem asrResult_zero (v : Halfword) : asrResult v 0 = v := rfl

theorem asrCarry_zero (c : Bool) (v : Halfword) : asrCarry c v 0 = c := rfl

/-- A shift of 1 to 15 moves each bit down and fills with the sign (40_data_processing.md R83). -/
theorem asrResult_getLsbD {n : Nat} (v : Halfword) (hpos : 1 ≤ n) (hle : n ≤ 15) {i : Nat}
    (hi : i < 16) :
    (asrResult v n).getLsbD i = if i + n ≤ 15 then v.getLsbD (i + n) else v.getLsbD 15 := by
  rw [asrResult, if_neg (by omega), if_pos (by omega), BitVec.getLsbD_sshiftRight,
    BitVec.msb_eq_getLsbD_last]
  simp [Nat.not_le.mpr hi, Nat.add_comm n i, Nat.lt_succ_iff]

theorem asrCarry_of_le_fifteen {n : Nat} (c : Bool) (v : Halfword) (hpos : 1 ≤ n)
    (hle : n ≤ 15) : asrCarry c v n = v.getLsbD (n - 1) := by
  rw [asrCarry, if_neg (by omega), if_pos (by omega)]

/-- A shift of 16 or more leaves only the sign (40_data_processing.md R83). -/
theorem asrResult_of_sixteen_le {n : Nat} (v : Halfword) (hn : 16 ≤ n) :
    asrResult v n = if v.getLsbD 15 = true then 0xFFFF else 0x0000 := by
  rw [asrResult, if_neg (by omega), if_neg (by omega)]

theorem asrCarry_of_sixteen_le {n : Nat} (c : Bool) (v : Halfword) (hn : 16 ≤ n) :
    asrCarry c v n = v.getLsbD 15 := by
  rw [asrCarry, if_neg (by omega), if_neg (by omega)]

/-! ### The shared meanings -/

/-- An instruction that writes a low register and sets N and Z from it, where the PC may advance. -/
theorem writeLowNZ_completes {s : State} (hadv : s.CanAdvance) (rd : LowReg) (v : Halfword) :
    ∃ t, writeLowNZ rd v s = .next t ∧ t.readLow rd = v ∧ t.pc = s.pc + 2 ∧
      FlagsNZOf v s.flags t.flags ∧
      KeepsRegsBut rd.toReg s t ∧ KeepsMemory s t ∧ KeepsRest s t :=
  ⟨_, advance_writeLow_setFlags hadv rd v _, readLow_writeLow_endAt s rd v _ _, rfl,
    flagsNZOf_setNZ v s.flags, frame_writeReg_endAt s rd.toReg v _ _⟩

/-- An instruction that only sets flags, where the PC may advance. -/
theorem setFlagsOnly_completes {s : State} (hadv : s.CanAdvance) {f : Flags} {P : Flags → Prop}
    (hf : P f) :
    ∃ t, setFlagsOnly f s = .next t ∧ t.pc = s.pc + 2 ∧ P t.flags ∧
      KeepsRegs s t ∧ KeepsMemory s t ∧ KeepsRest s t :=
  ⟨_, advance_setFlags hadv f, rfl, hf, frame_endAt s f _⟩

/-- `CMP`(3) with a high register compares (30_encoding.md R65, 40_data_processing.md R86). -/
theorem compareHigh_of_high {rd rs : Reg} (hhigh : 8 ≤ rd.val ∨ 8 ≤ rs.val) (s : State) :
    compareHigh rd rs s =
      setFlagsOnly (subWithFlags (s.readReg rd) (s.readReg rs)).flags s := by
  rw [compareHigh, if_neg]
  simp only [Reg.isHigh, Bool.and_eq_true, Bool.not_eq_true', decide_eq_false_iff_not]
  omega

/-- `CMP`(3) with a high register, where the PC may advance. -/
theorem compareHigh_completes {s : State} (hadv : s.CanAdvance) {rd rs : Reg}
    (hhigh : 8 ≤ rd.val ∨ 8 ≤ rs.val) :
    ∃ t, compareHigh rd rs s = .next t ∧ t.pc = s.pc + 2 ∧
      FlagsOfDifference (s.readReg rd) (s.readReg rs) t.flags ∧
      KeepsRegs s t ∧ KeepsMemory s t ∧ KeepsRest s t := by
  rw [compareHigh_of_high hhigh]
  exact setFlagsOnly_completes hadv (flagsOfDifference_subWithFlags _ _)

/-- The end of an instruction whose destination is not the PC, where the PC may advance. -/
theorem advanceUnlessPC_of_ne {s : State} (hadv : s.CanAdvance) {rd : Reg} (hrd : rd ≠ regPC)
    (v : Halfword) (f : Flags) :
    advanceUnlessPC rd ((s.writeReg rd v).setFlags f) =
      .next ((s.writeReg rd v).endAt f (s.pc + 2)) := by
  rw [advanceUnlessPC, if_neg hrd, advance_writeReg_setFlags hadv hrd]

/-- The end of an instruction whose destination is the PC: a jump (10_state.md R15). -/
theorem advanceUnlessPC_regPC (s : State) (v : Halfword) (f : Flags) :
    advanceUnlessPC regPC ((s.writeReg regPC v).setFlags f) = .next (s.endAt f v) := rfl

/-- `ADD`(2) where the PC may advance and the sum is an address or wraps
(40_data_processing.md R81, 20_memory.md R31). -/
theorem exec_add2_eq {s : State} (hadv : s.CanAdvance) (rd : LowReg) {imm8 : BitVec 8}
    (hwrap : s.params.wrap = .wrap ∨ (s.pc &&& 0xFFFC).toNat + 4 * imm8.toNat ≤ 65535) :
    exec (.add2 rd imm8) s =
      .next ((s.writeLow rd ((s.pc &&& 0xFFFC) + BitVec.ofNat 16 (4 * imm8.toNat))).endAt
        s.flags (s.pc + 2)) := by
  refine (andThen_eq_next _ _ _).mpr ⟨_, ?address, advance_writeLow hadv rd _⟩
  refine (wrapAddress_eq_next _ _ _).mpr ⟨fun hfault => ?inRange, ?sum⟩
  case inRange =>
    have hsum := hwrap.resolve_left (by simp [hfault])
    rw [pcOffset_toNat]
    omega
  case sum => rw [ofInt_toNat_add, pcOffset_eq]

/-! ### The statements -/

/-- Settles O19: the sum goes to a general register and the PC advances, or to the PC. -/
theorem addRegisters : Obligations.AddRegisters := by
  intro rd rs s
  constructor
  · intro hrd hadv
    refine ⟨_, advanceUnlessPC_of_ne hadv hrd _ _, ?_, rfl, flagsOfSum_addWithFlags _ _,
      frame_writeReg_endAt s rd _ _ _⟩
    rw [readReg_writeReg_endAt s _ _ _ hrd, addWithFlags_result]
  · rintro rfl
    exact ⟨_, advanceUnlessPC_regPC s _ _, addWithFlags_result _ _, flagsOfSum_addWithFlags _ _,
      frame_endAt s _ _⟩

/-- Settles O20: the one address computation of `ADD`(2) succeeds, and the advance follows. -/
theorem addPCRelative : Obligations.AddPCRelative := by
  intro rd imm8 s hadv hwrap
  refine ⟨_, exec_add2_eq hadv rd hwrap, readLow_writeLow_endAt s rd _ _ _, ?aligned, rfl, rfl,
    frame_writeReg_endAt s rd.toReg _ _ _⟩
  case aligned =>
    rw [readLow_writeLow_endAt]
    exact alignedPC_add_toNat_mod_four s.pc imm8.toNat

/-- Settles O21: both write a low register and set N and Z from it. -/
theorem bitwiseAndExclusiveOr : Obligations.BitwiseAndExclusiveOr := by
  intro rd rs s hadv
  exact ⟨writeLowNZ_completes hadv rd _, writeLowNZ_completes hadv rd _⟩

/-- Settles O22, by the three ranges of the shift amount in R83. -/
theorem arithmeticShiftRight : Obligations.ArithmeticShiftRight := by
  intro rd rs s n hadv hn
  rw [← shiftAmount_eq] at hn
  subst hn
  obtain ⟨hN, hZ, hC, hV⟩ := flagsNZOf_setNZ
    (asrResult (s.readLow rd) (shiftAmount (s.readLow rs)))
    { s.flags with c := asrCarry s.flags.c (s.readLow rd) (shiftAmount (s.readLow rs)) }
  refine ⟨_, advance_writeLow_setFlags hadv rd _ _, rfl, ?_⟩
  rw [readLow_writeLow_endAt, State.endAt_flags, hC]
  refine ⟨fun hzero => ?zero, fun hpos hle => ?oneToFifteen, fun hge => ?sixteenUp, hN, hZ, hV,
    frame_writeReg_endAt s rd.toReg _ _ _⟩
  case zero =>
    rw [hzero, asrResult_zero, asrCarry_zero]
    exact ⟨rfl, rfl⟩
  case oneToFifteen =>
    exact ⟨fun i hi => asrResult_getLsbD _ hpos hle hi, asrCarry_of_le_fifteen _ _ hpos hle⟩
  case sixteenUp => exact ⟨asrResult_of_sixteen_le _ hge, asrCarry_of_sixteen_le _ _ hge⟩

/-- Settles O23: both set only the flags of a difference. -/
theorem compareLowRegisters : Obligations.CompareLowRegisters := by
  intro rd rs imm8 s hadv
  rw [← immediate8_eq]
  exact ⟨setFlagsOnly_completes hadv (flagsOfDifference_subWithFlags _ _),
    setFlagsOnly_completes hadv (flagsOfDifference_subWithFlags _ _)⟩

/-- Settles O24: either register high makes the comparison defined. -/
theorem compareHighRegisters : Obligations.CompareHighRegisters := by
  intro s hadv
  exact ⟨fun _ _ hhigh => compareHigh_completes hadv hhigh,
    fun _ _ hrs => compareHigh_completes hadv (.inr hrs)⟩

/-- Settles O26: what N and Z are of a zero-extended byte. -/
theorem moveImmediate : Obligations.MoveImmediate := by
  intro rd imm8 s hadv
  obtain ⟨t, hexec, hrd, hpc, ⟨hn, hz, hc, hv⟩, hframe⟩ :=
    writeLowNZ_completes hadv rd (immediate8 imm8)
  rw [immediate8_getLsbD_fifteen] at hn
  rw [immediate8_eq_zero_iff] at hz
  rw [immediate8_eq] at hrd
  exact ⟨t, hexec, hrd, hpc, hn, hz, hc, hv, hframe⟩

/-- Settles O27: the value goes to a general register and the PC advances, or to the PC. -/
theorem moveRegister : Obligations.MoveRegister := by
  intro rd rs s
  constructor
  · intro hrd hadv
    exact ⟨_, advanceUnlessPC_of_ne hadv hrd _ _, readReg_writeReg_endAt s _ _ _ hrd, rfl,
      flagsNZOf_setNZ _ _, frame_writeReg_endAt s rd _ _ _⟩
  · rintro rfl
    exact ⟨_, advanceUnlessPC_regPC s _ _, rfl, flagsNZOf_setNZ _ _, frame_endAt s _ _⟩

/-- Settles O28: the flags of `0 - Rs`, C and V then read off the definitions. -/
theorem negateRegister : Obligations.NegateRegister := by
  intro rd rs s hadv
  have hflags := flagsOfDifference_subWithFlags 0 (s.readLow rs)
  refine ⟨_, advance_writeLow_setFlags hadv rd _ _, ?_, rfl, hflags,
    hflags.carry_of_zero_sub, hflags.overflow_of_zero_sub, frame_writeReg_endAt s rd.toReg _ _ _⟩
  rw [readLow_writeLow_endAt, subWithFlags_result]

/-- Settles O29: only N and Z are set. -/
theorem testBits : Obligations.TestBits := by
  intro rd rs s hadv
  exact setFlagsOnly_completes hadv (flagsNZOf_setNZ _ _)

end Sys2Proof.Machine

/-! PROOFS. The addressing mode of the loads and stores, and the registers they leave alone. -/

namespace Sys2Proof.Machine

/-! ### The address -/

/-- The address computation succeeds when the sum is an address or wraps (41_load_store.md R104,
20_memory.md R31). -/
theorem effectiveAddress_of_inRange_or_wrap {s : State} {rb : LowReg} {offset : Halfword} {n : Nat}
    (hoffset : offset.toNat = n)
    (hwrap : s.params.wrap = .wrap ∨ (s.readLow rb).toNat + n ≤ 65535) :
    effectiveAddress s rb offset = .next (s.readLow rb + BitVec.ofNat 16 n) := by
  subst hoffset
  refine (effectiveAddress_eq_next s rb offset _).mpr ⟨fun hfault => ?inRange, ?sum⟩
  case inRange => exact hwrap.resolve_left (by simp [hfault])
  case sum => rw [BitVec.ofNat_toNat, BitVec.setWidth_eq]

/-! ### The registers -/

/-- The end of a load leaves every low register but its destination alone. -/
theorem advance_writeLow_readLow_other {s t : State} {rd q : LowReg} {v : Halfword}
    (h : advance (s.writeLow rd v) = .next t) (hne : rd ≠ q) : t.readLow q = s.readLow q := by
  have hreg : q.toReg ≠ rd.toReg := fun heq => hne ((toReg_injective q rd).mp heq).symm
  rw [advance_readLow h]
  exact readReg_writeReg_other s rd.toReg q.toReg v hreg

/-- `STR` writes no register (41_load_store.md R102). -/
theorem exec_str_readLow {rd rb : LowReg} {imm5 : BitVec 5} {s t : State}
    (h : exec (.str rd rb imm5) s = .next t) (q : LowReg) : t.readLow q = s.readLow q := by
  obtain ⟨a, -, hrest⟩ := (andThen_eq_next _ _ t).mp h
  obtain ⟨u, hstore, hadv⟩ := (andThen_eq_next _ _ t).mp hrest
  rw [advance_readLow hadv, readLow_congr s u q (storeData_keeps s u a _ hstore).regs]

/-- `STRB` writes no register (41_load_store.md R103). -/
theorem exec_strb_readLow {rd rb : LowReg} {imm5 : BitVec 5} {s t : State}
    (h : exec (.strb rd rb imm5) s = .next t) (q : LowReg) : t.readLow q = s.readLow q := by
  obtain ⟨a, -, hadv⟩ := (andThen_eq_next _ _ t).mp h
  rw [advance_readLow hadv, readLow_congr s _ q (storeByte_keeps s a _).regs]

/-- `LDR` writes no low register but its destination (41_load_store.md R100). -/
theorem exec_ldr_readLow_other {rd rb : LowReg} {imm5 : BitVec 5} {s t : State}
    (h : exec (.ldr rd rb imm5) s = .next t) {q : LowReg} (hne : rd ≠ q) :
    t.readLow q = s.readLow q := by
  obtain ⟨a, -, hrest⟩ := (andThen_eq_next _ _ t).mp h
  obtain ⟨⟨v, u⟩, hload, hadv⟩ := (andThen_eq_next _ _ t).mp hrest
  rw [advance_writeLow_readLow_other hadv hne,
    readLow_congr s u q (loadData_keeps s u a v hload).regs]

/-- `LDRB` writes no low register but its destination (41_load_store.md R101). -/
theorem exec_ldrb_readLow_other {rd rb : LowReg} {imm5 : BitVec 5} {s t : State}
    (h : exec (.ldrb rd rb imm5) s = .next t) {q : LowReg} (hne : rd ≠ q) :
    t.readLow q = s.readLow q := by
  obtain ⟨a, -, hadv⟩ := (andThen_eq_next _ _ t).mp h
  rw [advance_writeLow_readLow_other hadv hne, readLow_congr s _ q (loadByte_keeps s a).regs]

/-! ### The statement -/

/-- Settles O30: one address computation for both scalings; the base is a register like any other
that the instruction does not name as its destination. -/
theorem effectiveAddressIsBasePlusOffset : Obligations.EffectiveAddressIsBasePlusOffset := by
  intro s rd rb imm5
  refine ⟨?halfwordAddress, ?byteAddress, ?str, ?strb, ?ldr, ?ldrb⟩
  case halfwordAddress => exact effectiveAddress_of_inRange_or_wrap (halfwordOffset_toNat imm5)
  case byteAddress => exact effectiveAddress_of_inRange_or_wrap (byteOffset_toNat imm5)
  case str => exact fun t h => exec_str_readLow h rb
  case strb => exact fun t h => exec_strb_readLow h rb
  case ldr => exact fun t h hne => exec_ldr_readLow_other h hne
  case ldrb => exact fun t h hne => exec_ldrb_readLow_other h hne

end Sys2Proof.Machine

/-! PROOFS. The conditional branches: where the PC goes, and what they keep. -/

namespace Sys2Proof.Machine

/-- What an instruction that only moves the PC keeps. -/
theorem frame_setPc (s : State) (a : Halfword) :
    KeepsRegs s (s.setPc a) ∧ KeepsMemory s (s.setPc a) ∧ KeepsRest s (s.setPc a) :=
  frame_endAt s s.flags a

/-- A taken branch only moves the PC, where its target is an address or wraps (42_branch.md R110,
20_memory.md R31). -/
theorem branchIf_of_taken {c : Cond} {offset8 : BitVec 8} {s : State}
    (htaken : conditionPassed c s.flags = true)
    (hwrap : s.params.wrap = .wrap ∨ (0 ≤ (s.pc.toNat : Int) + 2 * offset8.toInt ∧
      (s.pc.toNat : Int) + 2 * offset8.toInt ≤ 65535)) :
    branchIf c offset8 s = .next (s.setPc (s.pc + BitVec.ofInt 16 (2 * offset8.toInt))) := by
  refine (branchIf_eq_next c offset8 s _).mpr (.inl ⟨htaken, _, ?target, rfl⟩)
  refine (wrapAddress_eq_next _ _ _).mpr ⟨fun hfault => ?inRange, ?sum⟩
  case inRange =>
    rw [branchOffset_toInt]
    exact hwrap.resolve_left (by simp [hfault])
  case sum => exact (ofInt_toNat_add_branchOffset s.pc offset8).symm

/-- A branch not taken only advances the PC, where the PC may advance (42_branch.md R110,
10_state.md R16). -/
theorem branchIf_of_not_taken {c : Cond} {offset8 : BitVec 8} {s : State}
    (hnot : conditionPassed c s.flags = false) (hadv : s.CanAdvance) :
    branchIf c offset8 s = .next (s.setPc (s.pc + 2)) :=
  (branchIf_eq_next c offset8 s _).mpr (.inr ⟨hnot, advance_of_canAdvance hadv⟩)

/-- Settles O43: the fourteen branches are one operation under their conditions, and taken or not it
only moves the PC. -/
theorem conditionalBranch : Obligations.ConditionalBranch := by
  intro c offset8 s
  rw [exec_branchOf]
  constructor
  · intro htaken hwrap
    exact ⟨_, branchIf_of_taken htaken hwrap, rfl, rfl, frame_setPc s _⟩
  · intro hnot hadv
    exact ⟨_, branchIf_of_not_taken hnot hadv, rfl, rfl, frame_setPc s _⟩

end Sys2Proof.Machine

/-! PROOFS. `HALT`: what it keeps, and that a halted machine has no step. -/

namespace Sys2Proof.Machine

/-- A halted machine has no transition (93_implementation_defined.md I16, log 10). -/
theorem step_of_halted {s : State} (h : s.halted = true) : step s = .refused .halted := by
  simp [step, h]

/-- `HALT` only sets the halted bit (43_miscellaneous.md R120). -/
theorem exec_halt_eq (s : State) : exec .halt s = .next (s.setHalted true) := rfl

/-- Setting the halted bit keeps every register and every byte of memory. -/
theorem frame_setHalted (s : State) (b : Bool) :
    KeepsRegs s (s.setHalted b) ∧ KeepsMemory s (s.setHalted b) :=
  ⟨fun r _ => readReg_setHalted s b r, fun a => by rw [State.setHalted_mem]⟩

/-- Settles O46: the state after `HALT` differs in the halted bit only, and that bit refuses every
further step. -/
theorem haltStopsTheMachine : Obligations.HaltStopsTheMachine := by
  intro s
  obtain ⟨hregs, hmem⟩ := frame_setHalted s true
  refine ⟨s.setHalted true, exec_halt_eq s, State.setHalted_halted s true, rfl, hregs, hmem, rfl,
    rfl, rfl, rfl, ?noStep⟩
  case noStep =>
    intro u hstep
    rw [step_of_halted (State.setHalted_halted s true)] at hstep
    cases hstep

end Sys2Proof.Machine

/-! PROOFS. The encoder and the decoder are inverse: the word of an instruction lies in the row of
the instruction and holds its operands in its fields. -/

namespace Sys2Proof

open Machine (toReg_val)

/-! ### The fields of a word as numbers -/

theorem lowField_val (w : Halfword) (lo : Nat) : (lowField w lo).val = w.toNat / 2 ^ lo % 8 :=
  Nat.mod_mod _ _

theorem regField_val (w : Halfword) (h lo : Nat) :
    (regField w h lo).val = 8 * (w.toNat / 2 ^ h % 2) + w.toNat / 2 ^ lo % 8 := by
  change (8 * (w.toNat / 2 ^ h % 2) + w.toNat / 2 ^ lo % 8) % 16 = _
  omega

theorem imm8Field_toNat (w : Halfword) : (imm8Field w).toNat = w.toNat % 256 := by
  simp [imm8Field, field]

theorem imm5Field_toNat (w : Halfword) : (imm5Field w).toNat = w.toNat / 64 % 32 := by
  simp [imm5Field, field]

/-- With H1 = 0 the register field of Format 5 names a low register (30_encoding.md R55, R61). -/
theorem toReg_lowField {w : Halfword} (hH1 : w.toNat / 128 % 2 = 0) :
    (lowField w 0).toReg = regField w 7 0 := by
  apply Fin.ext
  rw [toReg_val, lowField_val, regField_val]
  omega

theorem Reg.isHigh_iff (r : Reg) : r.isHigh = true ↔ 8 ≤ r.val := decide_eq_true_iff

/-! ### The fields of an encoded word are its operands -/

/-- Formats 3 and 12 (30_encoding.md R53, R57). -/
theorem fields_encodeRdImm8 {fixed : Nat} (hfixed : fixed % 2 ^ 11 = 0) (rd : LowReg)
    (imm8 : BitVec 8) :
    lowField (encodeRdImm8 fixed rd imm8) 8 = rd ∧
      imm8Field (encodeRdImm8 fixed rd imm8) = imm8 := by
  have hrd := rd.isLt
  have himm := imm8.isLt
  refine ⟨Fin.ext ?_, BitVec.eq_of_toNat_eq ?_⟩
  · rw [lowField_val, encodeRdImm8, BitVec.toNat_ofNat]
    omega
  · rw [imm8Field_toNat, encodeRdImm8, BitVec.toNat_ofNat]
    omega

/-- Format 4 (30_encoding.md R54). -/
theorem fields_encodeRdRs {fixed : Nat} (hfixed : fixed % 2 ^ 6 = 0) (rd rs : LowReg) :
    lowField (encodeRdRs fixed rd rs) 0 = rd ∧ lowField (encodeRdRs fixed rd rs) 3 = rs := by
  have hrd := rd.isLt
  have hrs := rs.isLt
  refine ⟨Fin.ext ?_, Fin.ext ?_⟩
  all_goals
    rw [lowField_val, encodeRdRs, BitVec.toNat_ofNat]
    omega

/-- Format 5 (30_encoding.md R55). -/
theorem fields_encodeHiRegs {fixed : Nat} (hfixed : fixed % 2 ^ 8 = 0) (rd rs : Reg) :
    regField (encodeHiRegs fixed rd rs) 7 0 = rd ∧
      regField (encodeHiRegs fixed rd rs) 6 3 = rs := by
  have hrd := rd.isLt
  have hrs := rs.isLt
  refine ⟨Fin.ext ?_, Fin.ext ?_⟩
  all_goals
    rw [regField_val, encodeHiRegs, BitVec.toNat_ofNat]
    omega

/-- Format 5 with a low destination (30_encoding.md R55, R61). -/
theorem lowField_encodeHiRegs {fixed : Nat} (hfixed : fixed % 2 ^ 8 = 0) (rd : LowReg) (rs : Reg) :
    lowField (encodeHiRegs fixed rd.toReg rs) 0 = rd := by
  have hrd := rd.isLt
  apply Fin.ext
  rw [lowField_val, encodeHiRegs, BitVec.toNat_ofNat, toReg_val]
  omega

/-- Format 9 (30_encoding.md R56). -/
theorem fields_encodeRdRbImm5 {fixed : Nat} (hfixed : fixed % 2 ^ 11 = 0) (rd rb : LowReg)
    (imm5 : BitVec 5) :
    lowField (encodeRdRbImm5 fixed rd rb imm5) 0 = rd ∧
      lowField (encodeRdRbImm5 fixed rd rb imm5) 3 = rb ∧
      imm5Field (encodeRdRbImm5 fixed rd rb imm5) = imm5 := by
  have hrd := rd.isLt
  have hrb := rb.isLt
  have himm := imm5.isLt
  refine ⟨Fin.ext ?_, Fin.ext ?_, BitVec.eq_of_toNat_eq ?_⟩
  · rw [lowField_val, encodeRdRbImm5, BitVec.toNat_ofNat]
    omega
  · rw [lowField_val, encodeRdRbImm5, BitVec.toNat_ofNat]
    omega
  · rw [imm5Field_toNat, encodeRdRbImm5, BitVec.toNat_ofNat]
    omega

/-- Format 16 (30_encoding.md R58). -/
theorem imm8Field_encodeBranch (cond : Nat) (offset8 : BitVec 8) :
    imm8Field (encodeBranch cond offset8) = offset8 := by
  have hoffset := offset8.isLt
  apply BitVec.eq_of_toNat_eq
  rw [imm8Field_toNat, encodeBranch, BitVec.toNat_ofNat]
  omega

/-- An instruction's operands are the fields of its word. -/
theorem withFieldsOf_encode (i : Instr) : i.withFieldsOf (encode i) = i := by
  cases i <;> simp only [encode, Instr.withFieldsOf]
  case mov1 | cmp1 | add2 => simp [fields_encodeRdImm8]
  case and | eor | asr | tst | neg | cmp2 => simp [fields_encodeRdRs]
  case add1 | cmp3High | mov2 => simp [fields_encodeHiRegs]
  case cmp3Low => simp [fields_encodeHiRegs, lowField_encodeHiRegs]
  case str | ldr | strb | ldrb => simp [fields_encodeRdRbImm5]
  case beq | bne | bcs | bcc | bmi | bpl | bvs | bvc | bhi | bls | bge | blt | bgt | ble =>
    rw [imm8Field_encodeBranch]

/-- The word of a well-formed instruction is in the instruction's row (30_encoding.md R62). -/
theorem inRow_encode {i : Instr} (h : i.WellFormed) : InRow (encode i) i := by
  revert h
  change Laws.FixedBits.Statement i
  cases i with
  | halt => exact Laws.FixedBits.halt
  | mov1 rd imm8 => exact Laws.FixedBits.mov1 rd imm8
  | cmp1 rd imm8 => exact Laws.FixedBits.cmp1 rd imm8
  | and rd rs => exact Laws.FixedBits.and rd rs
  | eor rd rs => exact Laws.FixedBits.eor rd rs
  | asr rd rs => exact Laws.FixedBits.asr rd rs
  | tst rd rs => exact Laws.FixedBits.tst rd rs
  | neg rd rs => exact Laws.FixedBits.neg rd rs
  | cmp2 rd rs => exact Laws.FixedBits.cmp2 rd rs
  | add1 rd rs => exact Laws.FixedBits.add1 rd rs
  | cmp3High rd rs => exact Laws.FixedBits.cmp3High rd rs
  | cmp3Low rd rs => exact Laws.FixedBits.cmp3Low rd rs
  | mov2 rd rs => exact Laws.FixedBits.mov2 rd rs
  | str rd rb imm5 => exact Laws.FixedBits.str rd rb imm5
  | ldr rd rb imm5 => exact Laws.FixedBits.ldr rd rb imm5
  | strb rd rb imm5 => exact Laws.FixedBits.strb rd rb imm5
  | ldrb rd rb imm5 => exact Laws.FixedBits.ldrb rd rb imm5
  | add2 rd imm8 => exact Laws.FixedBits.add2 rd imm8
  | beq o => exact Laws.FixedBits.beq o
  | bne o => exact Laws.FixedBits.bne o
  | bcs o => exact Laws.FixedBits.bcs o
  | bcc o => exact Laws.FixedBits.bcc o
  | bmi o => exact Laws.FixedBits.bmi o
  | bpl o => exact Laws.FixedBits.bpl o
  | bvs o => exact Laws.FixedBits.bvs o
  | bvc o => exact Laws.FixedBits.bvc o
  | bhi o => exact Laws.FixedBits.bhi o
  | bls o => exact Laws.FixedBits.bls o
  | bge o => exact Laws.FixedBits.bge o
  | blt o => exact Laws.FixedBits.blt o
  | bgt o => exact Laws.FixedBits.bgt o
  | ble o => exact Laws.FixedBits.ble o

/-- Settles O1: the word is in the instruction's row, so it decodes to that row's instruction with
the word's fields, which are the operands. -/
theorem decodeOfEncodeIsIdentity : Obligations.DecodeOfEncodeIsIdentity := by
  intro ignoresUnused i hwf
  rw [decode_of_inRow ignoresUnused (inRow_encode hwf), withFieldsOf_encode]

/-! ### A word is the word of its fields -/

/-- Formats 3 and 12 (30_encoding.md R53, R57). -/
theorem encodeRdImm8_fields {w : Halfword} {fixed : Nat} (h : w.toNat / 2 ^ 11 * 2 ^ 11 = fixed) :
    encodeRdImm8 fixed (lowField w 8) (imm8Field w) = w := by
  apply BitVec.eq_of_toNat_eq
  rw [encodeRdImm8, BitVec.toNat_ofNat, lowField_val, imm8Field_toNat]
  omega

/-- Format 4 (30_encoding.md R54). -/
theorem encodeRdRs_fields {w : Halfword} {fixed : Nat} (h : w.toNat / 2 ^ 6 * 2 ^ 6 = fixed) :
    encodeRdRs fixed (lowField w 0) (lowField w 3) = w := by
  apply BitVec.eq_of_toNat_eq
  rw [encodeRdRs, BitVec.toNat_ofNat, lowField_val, lowField_val]
  omega

/-- Format 5 (30_encoding.md R55). -/
theorem encodeHiRegs_fields {w : Halfword} {fixed : Nat} (h : w.toNat / 2 ^ 8 * 2 ^ 8 = fixed) :
    encodeHiRegs fixed (regField w 7 0) (regField w 6 3) = w := by
  apply BitVec.eq_of_toNat_eq
  rw [encodeHiRegs, BitVec.toNat_ofNat, regField_val, regField_val]
  omega

/-- Format 9 (30_encoding.md R56). -/
theorem encodeRdRbImm5_fields {w : Halfword} {fixed : Nat} (h : w.toNat / 2 ^ 11 * 2 ^ 11 = fixed) :
    encodeRdRbImm5 fixed (lowField w 0) (lowField w 3) (imm5Field w) = w := by
  apply BitVec.eq_of_toNat_eq
  rw [encodeRdRbImm5, BitVec.toNat_ofNat, lowField_val, lowField_val, imm5Field_toNat]
  omega

/-- Format 16 (30_encoding.md R58). -/
theorem encodeBranch_fields {w : Halfword} {cond : Nat} (h : w.toNat / 2 ^ 8 = 0xD0 + cond) :
    encodeBranch cond (imm8Field w) = w := by
  apply BitVec.eq_of_toNat_eq
  rw [encodeBranch, BitVec.toNat_ofNat, imm8Field_toNat]
  omega

/-- A word in a row is the word of that row's instruction with the word's fields. -/
theorem encode_withFieldsOf {w : Halfword} {j : Instr} (h : InRow w j) :
    encode (j.withFieldsOf w) = w := by
  rw [inRow_iff] at h
  cases j <;> simp only [Instr.freeBits, Instr.fixedBits, opcodeRow] at h <;>
    simp only [Instr.withFieldsOf, encode]
  case halt =>
    apply BitVec.eq_of_toNat_eq
    simpa using h.symm
  case mov1 | cmp1 | add2 => exact encodeRdImm8_fields (by rw [h]; rfl)
  case and | eor | asr | tst | neg | cmp2 => exact encodeRdRs_fields (by rw [h]; rfl)
  case add1 | mov2 => exact encodeHiRegs_fields (by rw [h]; rfl)
  case cmp3High =>
    have hH1 : w.toNat / 2 ^ 7 = 0x8B := h
    exact encodeHiRegs_fields (by omega)
  case cmp3Low =>
    have hH1H2 : w.toNat / 2 ^ 6 = 0x115 := h
    rw [toReg_lowField (by omega)]
    exact encodeHiRegs_fields (by omega)
  case str | ldr | strb | ldrb => exact encodeRdRbImm5_fields (by rw [h]; rfl)
  case beq | bne | bcs | bcc | bmi | bpl | bvs | bvc | bhi | bls | bge | blt | bgt | ble =>
    exact encodeBranch_fields (by rw [h]; rfl)

/-- With the fields of a word in its row, an instruction is well-formed: the rows of `CMP`(3) fix
the H bit that makes a register high (30_encoding.md R65). -/
theorem wellFormed_withFieldsOf {w : Halfword} {j : Instr} (h : InRow w j) :
    (j.withFieldsOf w).WellFormed := by
  rw [inRow_iff] at h
  cases j <;> simp only [Instr.freeBits, Instr.fixedBits, opcodeRow] at h
  case cmp3High =>
    have hH1 : w.toNat / 2 ^ 7 = 0x8B := h
    refine (Reg.isHigh_iff _).mpr ?_
    rw [regField_val]
    omega
  case cmp3Low =>
    have hH2 : w.toNat / 2 ^ 6 = 0x115 := h
    refine (Reg.isHigh_iff _).mpr ?_
    rw [regField_val]
    omega
  all_goals rfl

/-- Settles O2: a word that decodes is in a row, so the instruction is that row's with the word's
fields. -/
theorem encodeOfDecodeIsIdentity : Obligations.EncodeOfDecodeIsIdentity := by
  intro w i hdecode
  have hrow := inRow_of_decode hdecode
  have hi : i.withFieldsOf w = i := by
    rw [decode_of_inRow false hrow] at hdecode
    exact Except.ok.inj hdecode
  rw [← hi]
  exact ⟨wellFormed_withFieldsOf hrow, encode_withFieldsOf hrow⟩

/-! ### The assigned words -/

/-- A word is assigned exactly when it is in some row (30_encoding.md R62, R63). -/
theorem exists_decode_iff (w : Halfword) :
    (∃ i, decode false w = .ok i) ↔ ∃ j, InRow w j :=
  ⟨fun ⟨i, h⟩ => ⟨i, inRow_of_decode h⟩, fun ⟨j, h⟩ => ⟨j.withFieldsOf w, decode_of_inRow false h⟩⟩

/-- One instruction of each row of the opcode map (30_encoding.md R62). -/
def oneOfEachRow : List Instr :=
  [.halt, .mov1 0 0, .cmp1 0 0, .and 0 0, .eor 0 0, .asr 0 0, .tst 0 0, .neg 0 0, .cmp2 0 0,
    .add1 0 0, .cmp3High 0 0, .cmp3Low 0 0, .mov2 0 0, .str 0 0 0, .ldr 0 0 0, .strb 0 0 0,
    .ldrb 0 0 0, .add2 0 0, .beq 0, .bne 0, .bcs 0, .bcc 0, .bmi 0, .bpl 0, .bvs 0, .bvc 0, .bhi 0,
    .bls 0, .bge 0, .blt 0, .bgt 0, .ble 0]

/-- Settles O4: each row is an interval of words, and together they fill the eight ranges. -/
theorem assignedWordRanges : Obligations.AssignedWordRanges := by
  intro w
  rw [exists_decode_iff]
  constructor
  · rintro ⟨j, h⟩
    rw [inRow_iff] at h
    cases j <;> simp [Instr.freeBits, Instr.fixedBits, opcodeRow] at h <;> omega
  · intro hrange
    by_contra hnone
    have houtside : ∀ j ∈ oneOfEachRow, ¬InRow w j := fun j _ h => hnone ⟨j, h⟩
    simp [oneOfEachRow, inRow_iff, Instr.freeBits, Instr.fixedBits, opcodeRow] at houtside
    omega

/-- Settles O5, by evaluating the decoder on each of the ten words. -/
theorem sampleWordsDecode : Obligations.SampleWordsDecode := by
  unfold Obligations.SampleWordsDecode
  decide

/-! ### `HALT_IGNORES_UNUSED` -/

/-- Outside Format 0 the parameter is not asked (30_encoding.md R51). -/
theorem decode_of_format_ne_zero {w : Halfword} (hfmt : field w 13 3 ≠ 0) (b : Bool) :
    decode b w = decode false w := by
  unfold decode
  split
  case h_1 h0 => exact absurd h0 hfmt
  all_goals rfl

/-- Format 0 is 0x0000 to 0x1FFF (30_encoding.md R52). -/
theorem decode_of_format_zero {w : Halfword} (hfmt : field w 13 3 = 0) (b : Bool) :
    decode b w = decodeFormat0 b w := by
  simp [decode, hfmt]

/-- Settles O7: the parameter is asked only for a word of Format 0 with OP = 0, which is a word
below 256. -/
theorem haltUnusedField : Obligations.HaltUnusedField := by
  intro w
  have hw := w.isLt
  refine ⟨fun hlt => ?ignored, fun hpos hlt => ?rejected, fun hge => ?other⟩
  case ignored =>
    have hfmt : field w 13 3 = 0 := by simp only [field]; omega
    have hop : field w 8 5 = 0 := by simp only [field]; omega
    simp [decode_of_format_zero hfmt, decodeFormat0, hop]
  case rejected =>
    have hfmt : field w 13 3 = 0 := by simp only [field]; omega
    have hop : field w 8 5 = 0 := by simp only [field]; omega
    have hunused : field w 0 8 ≠ 0 := by simp only [field]; omega
    simp [decode_of_format_zero hfmt, decodeFormat0, hop, hunused]
  case other =>
    by_cases hfmt : field w 13 3 = 0
    · have hop : field w 8 5 ≠ 0 := by simp only [field] at hfmt ⊢; omega
      simp [decode_of_format_zero hfmt, decodeFormat0, hop]
    · exact decode_of_format_ne_zero hfmt true

end Sys2Proof

/-! PROOFS. The step: what a fetch answers, and which instruction it hands to the execution. -/

namespace Sys2Proof.Machine

/-! ### The fetch -/

/-- The halfword at an address has the byte after it above the byte at it (20_memory.md R34). -/
theorem readHalfword_eq (m : Memory) (a : Halfword) :
    m.readHalfword a = (m.read (a + 1).toNat ++ m.read a.toNat : Halfword) := rfl

theorem fetchesMmio_eq_false_iff (s : State) :
    s.fetchesMmio = false ↔ isMmio s.params s.pc = false ∧ isMmio s.params (s.pc + 1) = false :=
  Bool.or_eq_false_iff

theorem fetchesMmio_eq_true_iff (s : State) :
    s.fetchesMmio = true ↔ isMmio s.params s.pc = true ∨ isMmio s.params (s.pc + 1) = true :=
  Bool.or_eq_true_iff

theorem fetchesWritten_eq_true_iff (s : State) :
    s.fetchesWritten = true ↔ s.pc.toNat ∈ s.written ∨ (s.pc + 1).toNat ∈ s.written := by
  simp [State.fetchesWritten]

theorem fetchesWritten_eq_false_iff (s : State) :
    s.fetchesWritten = false ↔ s.pc.toNat ∉ s.written ∧ (s.pc + 1).toNat ∉ s.written := by
  rw [← Bool.not_eq_true, fetchesWritten_eq_true_iff, not_or]

/-- A fetch at an even PC, with neither the I/O region nor a stored byte in its way, reads the
halfword at the PC (20_memory.md R35). -/
theorem fetch_of_clear {s : State} (heven : s.pc.toNat % 2 = 0)
    (hio : isMmio s.params s.pc = false) (hio' : isMmio s.params (s.pc + 1) = false)
    (hsmc : s.params.smc = .coherent ∨ (s.pc.toNat ∉ s.written ∧ (s.pc + 1).toNat ∉ s.written)) :
    fetch s = .next (s.mem.readHalfword s.pc) := by
  refine (fetch_eq_next s _).mpr
    ⟨heven, (fetchesMmio_eq_false_iff s).mpr ⟨hio, hio'⟩, fun hfault => ?stored, rfl⟩
  case stored =>
    exact (fetchesWritten_eq_false_iff s).mpr (hsmc.resolve_left (by simp [hfault]))

/-- A fetch at an odd PC faults (10_state.md R27). -/
theorem fetch_of_odd {s : State} (hodd : s.pc.toNat % 2 = 1) :
    fetch s = .fault .misalignedFetch := by
  rw [fetch, if_pos hodd]

/-- A fetch that touches the I/O region faults (20_memory.md R43). -/
theorem fetch_of_mmio {s : State} (heven : s.pc.toNat % 2 = 0)
    (hio : isMmio s.params s.pc = true ∨ isMmio s.params (s.pc + 1) = true) :
    fetch s = .fault .fetchFromMmio := by
  rw [fetch, if_neg (by omega), if_pos ((fetchesMmio_eq_true_iff s).mpr hio)]

/-- Under `SMC_POLICY = fault` a fetch of a stored byte faults (20_memory.md R42). -/
theorem fetch_of_stored {s : State} (heven : s.pc.toNat % 2 = 0)
    (hio : isMmio s.params s.pc = false) (hio' : isMmio s.params (s.pc + 1) = false)
    (hsmc : s.params.smc = .fault)
    (hstored : s.pc.toNat ∈ s.written ∨ (s.pc + 1).toNat ∈ s.written) :
    fetch s = .fault .fetchAfterStore := by
  rw [fetch, if_neg (by omega), if_neg, if_pos ⟨hsmc, (fetchesWritten_eq_true_iff s).mpr hstored⟩]
  rw [(fetchesMmio_eq_false_iff s).mpr ⟨hio, hio'⟩]
  exact Bool.false_ne_true

/-! ### The step -/

theorem step_of_fetch_fault {s : State} {f : Fault} (hrun : s.halted = false)
    (hfetch : fetch s = .fault f) : step s = .fault f := by
  simp [step, hrun, hfetch]

/-- A fetched word that is no instruction faults (30_encoding.md R63). -/
theorem step_of_decode_error {s : State} {w : Halfword} (hrun : s.halted = false)
    (hfetch : fetch s = .next w) (hnone : ∀ i, decode s.params.haltIgnoresUnused w ≠ .ok i) :
    step s = .fault .unassignedEncoding := by
  have hdecode : decodeFetched s w = .fault .unassignedEncoding := by
    unfold decodeFetched
    split
    case h_1 i hi => exact absurd hi (hnone i)
    case h_2 => rfl
  simp [step, hrun, hfetch, hdecode]

/-- Everything a step that answers a next state has done: it was not halted, fetched a word, decoded
it and executed the instruction in the same state (00_scope.md R8). -/
theorem step_eq_next {s t : State} (h : step s = .next t) :
    ∃ w i, s.halted = false ∧ fetch s = .next w ∧
      decode s.params.haltIgnoresUnused w = .ok i ∧ exec i s = .next t := by
  unfold step at h
  split at h
  case isTrue => cases h
  case isFalse hrun =>
    obtain ⟨w, hfetch, hrest⟩ := (andThen_eq_next _ _ t).mp h
    obtain ⟨i, hdecode, hexec⟩ := (andThen_eq_next _ _ t).mp hrest
    exact ⟨w, i, Bool.eq_false_iff.mpr hrun, hfetch, (decodeFetched_eq_next s w i).mp hdecode,
      hexec⟩

/-! ### The statements -/

/-- Settles O8: the fetch reads the two bytes, and the step executes what they decode to. -/
theorem stepRunsDecodedInstruction : Obligations.StepRunsDecodedInstruction :=
  fun _ _ hrun heven hio hio' hsmc hdecode =>
    step_eq_exec hrun (fetch_of_clear heven hio hio' hsmc) hdecode

/-- Settles O9: the halted bit is asked before anything else. -/
theorem haltedMachineHasNoStep : Obligations.HaltedMachineHasNoStep := fun _ => step_of_halted

/-- Settles O11: the fetch asks for the I/O region before it reads. -/
theorem fetchFromIOFaults : Obligations.FetchFromIOFaults :=
  fun _ hrun heven hio => step_of_fetch_fault hrun (fetch_of_mmio heven hio)

/-- Settles O12, by the two values of `SMC_POLICY`. -/
theorem fetchOfStoredBytes : Obligations.FetchOfStoredBytes :=
  fun _ hrun heven hio hio' hstored =>
    ⟨fun hfault => step_of_fetch_fault hrun (fetch_of_stored heven hio hio' hfault hstored),
      fun hcoherent => fetch_of_clear heven hio hio' (.inl hcoherent)⟩

/-- Settles O14: nothing is written at launch, so the first fetch reads bytes 0 and 1. -/
theorem launchRunsWordAtZero : Obligations.LaunchRunsWordAtZero := by
  refine fun l i => ⟨State.launch_pc l, State.launch_halted l, fun hio hio' hdecode => ?first⟩
  case first =>
    have hfetch : fetch (State.launch l) = .next (l.mem.readHalfword 0) :=
      fetch_of_clear (s := State.launch l) rfl hio hio' (.inr (by simp))
    exact step_eq_exec (State.launch_halted l) hfetch hdecode

/-- Settles O15: both lists are empty. -/
theorem resetHasInvariant : Obligations.ResetHasInvariant :=
  ⟨⟨.nil, fun _ hc => absurd hc List.not_mem_nil⟩, .nil, fun _ ha => absurd ha List.not_mem_nil⟩

/-- Settles O13: outside the assigned ranges no word decodes, and from 0x0100 up the parameter
changes nothing. -/
theorem unassignedWordFaults : Obligations.UnassignedWordFaults := by
  intro s w hrun hfetch hrange
  have hnone : ∀ i, decode false w ≠ .ok i := by
    intro i hi
    have hassigned := (assignedWordRanges w).mp ⟨i, hi⟩
    omega
  have hparameter : decode s.params.haltIgnoresUnused w = decode false w := by
    cases hb : s.params.haltIgnoresUnused
    case false => rfl
    case true =>
      obtain ⟨-, -, hother⟩ := haltUnusedField w
      refine hother ?_
      simp only [hb, Bool.true_eq_false, false_and, false_or] at hrange
      omega
  exact step_of_decode_error hrun hfetch (by rwa [hparameter])

/-- Settles O10: the two writers of an odd PC leave the value as it is, and the next fetch asks for
an even one. -/
theorem oddPCFaultsAtFetch : Obligations.OddPCFaultsAtFetch := by
  have hodd : ∀ s : State, s.halted = false → s.pc.toNat % 2 = 1 →
      step s = .fault .misalignedFetch :=
    fun s hrun hpc => step_of_fetch_fault hrun (fetch_of_odd hpc)
  refine ⟨hodd, fun s t rs hrun => ⟨fun hvalue h => ?mov2, fun hsum h => ?add1⟩⟩
  case mov2 =>
    obtain ⟨-, hjump⟩ := moveRegister regPC rs s
    obtain ⟨t', h', hpc, hflags, -, -, hhalted, -⟩ := hjump rfl
    cases h.symm.trans h'
    exact ⟨hpc, hflags, hodd t (hhalted.trans hrun) (hpc ▸ hvalue)⟩
  case add1 =>
    obtain ⟨-, hjump⟩ := addRegisters regPC rs s
    obtain ⟨t', h', hpc, hflags, -, -, hhalted, -⟩ := hjump rfl
    cases h.symm.trans h'
    exact ⟨hpc, hflags, hodd t (hhalted.trans hrun) (hpc ▸ hsum)⟩

end Sys2Proof.Machine

/-! PROOFS. The laws of addition, subtraction and shift, and the order that the conditions mean
after a compare. -/

namespace Sys2Proof.Machine

/-! ### The sign bit -/

/-- Bit 15 is the sign (00_scope.md R3). -/
theorem getLsbD_fifteen (x : Halfword) : x.getLsbD 15 = decide (x.toInt < 0) := by
  rw [← BitVec.msb_eq_toInt, BitVec.msb_eq_getLsbD_last]

theorem toInt_range (x : Halfword) : -32768 ≤ x.toInt ∧ x.toInt ≤ 32767 := by
  have hle : -2 ^ 15 ≤ x.toInt := BitVec.le_toInt x
  have hlt : x.toInt < 2 ^ 15 := BitVec.toInt_lt
  omega

/-- A sum is its exact value, corrected by 2^16 when that overflows. -/
theorem toInt_add_cases (a b : Halfword) :
    (a + b).toInt = a.toInt + b.toInt ∧
        ¬(a.toInt + b.toInt < -32768 ∨ 32767 < a.toInt + b.toInt) ∨
      (a + b).toInt = a.toInt + b.toInt + 65536 ∧ a.toInt + b.toInt < -32768 ∨
      (a + b).toInt = a.toInt + b.toInt - 65536 ∧ 32767 < a.toInt + b.toInt := by
  have ha := toInt_range a
  have hb := toInt_range b
  have hsum : (a + b).toInt = (a.toInt + b.toInt).bmod 65536 := BitVec.toInt_add a b
  rw [hsum, Int.bmod_def]
  omega

/-- A difference is its exact value, corrected by 2^16 when that overflows. -/
theorem toInt_sub_cases (a b : Halfword) :
    (a - b).toInt = a.toInt - b.toInt ∧
        ¬(a.toInt - b.toInt < -32768 ∨ 32767 < a.toInt - b.toInt) ∨
      (a - b).toInt = a.toInt - b.toInt + 65536 ∧ a.toInt - b.toInt < -32768 ∨
      (a - b).toInt = a.toInt - b.toInt - 65536 ∧ 32767 < a.toInt - b.toInt := by
  have ha := toInt_range a
  have hb := toInt_range b
  have hdiff : (a - b).toInt = (a.toInt - b.toInt).bmod 65536 := BitVec.toInt_sub
  rw [hdiff, Int.bmod_def]
  omega

/-! ### The laws -/

/-- A sum overflows exactly when the operands' signs agree and the result's differs
(40_data_processing.md R75). -/
theorem overflow_add_iff (a b : Halfword) :
    (a.toInt + b.toInt < -32768 ∨ 32767 < a.toInt + b.toInt) ↔
      a.getLsbD 15 = b.getLsbD 15 ∧ (a + b).getLsbD 15 ≠ a.getLsbD 15 := by
  have ha := toInt_range a
  have hb := toInt_range b
  have hsum := toInt_add_cases a b
  simp only [getLsbD_fifteen, ne_eq, decide_eq_decide]
  omega

/-- A difference overflows exactly when the operands' signs differ and the result's differs from the
first (40_data_processing.md R76). -/
theorem overflow_sub_iff (a b : Halfword) :
    (a.toInt - b.toInt < -32768 ∨ 32767 < a.toInt - b.toInt) ↔
      a.getLsbD 15 ≠ b.getLsbD 15 ∧ (a - b).getLsbD 15 ≠ a.getLsbD 15 := by
  have ha := toInt_range a
  have hb := toInt_range b
  have hdiff := toInt_sub_cases a b
  simp only [getLsbD_fifteen, ne_eq, decide_eq_decide]
  omega

/-- Settles O50: the first three parts are the definition, the fourth the bit formula. -/
theorem additionLaw : Obligations.AdditionLaw := by
  intro a b
  obtain ⟨-, -, hcarry, hoverflow⟩ := flagsOfSum_addWithFlags a b
  refine ⟨?result, hcarry, hoverflow, ?formula⟩
  case result =>
    rw [addWithFlags_result]
    exact BitVec.toNat_add a b
  case formula =>
    rw [addWithFlags_result]
    exact hoverflow.trans (overflow_add_iff a b)

/-- Settles O51: the complement of `b` is `65535 - b`, so adding it and 1 adds `65536 - b`. -/
theorem subtractionLaw : Obligations.SubtractionLaw := by
  intro a b
  have hb := b.isLt
  have hnot : (~~~b).toNat = 65535 - b.toNat := BitVec.toNat_not
  obtain ⟨-, -, hcarry, hoverflow⟩ := flagsOfDifference_subWithFlags a b
  refine ⟨?result, ?carry, ?formula⟩
  case result =>
    rw [subWithFlags_result, BitVec.toNat_sub, hnot]
    omega
  case carry =>
    refine hcarry.trans ?_
    omega
  case formula =>
    rw [subWithFlags_result]
    exact hoverflow.trans (overflow_sub_iff a b)

/-- A value between -2^15 and 2^15, divided by 2^16 or more and rounded down, is its sign. -/
theorem toInt_ediv_of_sixteen_le (v : Halfword) {n : Nat} (hn : 16 ≤ n) :
    v.toInt / 2 ^ n = if v.toInt < 0 then -1 else 0 := by
  have hv := toInt_range v
  have hpow : (65536 : Int) ≤ 2 ^ n := pow_le_pow_right₀ (a := (2 : Int)) (by decide) hn
  split
  case isTrue hneg =>
    exact Int.ediv_eq_iff_of_pos (by omega) |>.mpr (by omega)
  case isFalse hpos => exact Int.ediv_eq_zero_of_lt (by omega) (by omega)

/-- Settles O52, by the three ranges of the shift amount in R83. -/
theorem shiftIsFloorDivision : Obligations.ShiftIsFloorDivision := by
  intro v n
  unfold asrResult
  split
  case isTrue hzero =>
    subst hzero
    simp
  case isFalse =>
    split
    case isTrue =>
      rw [BitVec.toInt_sshiftRight, Int.shiftRight_eq_div_pow]
      rfl
    case isFalse hn =>
      rw [toInt_ediv_of_sixteen_le v (by omega), getLsbD_fifteen]
      by_cases hneg : v.toInt < 0 <;> simp [hneg]

/-! ### The conditions -/

/-- Settles O44, by the definition of each condition. -/
theorem conditionTable : Obligations.ConditionTable := by
  intro f
  simp [conditionPassed]

/-- After a compare N and V differ exactly when the first value is the lesser of the two as signed
numbers (42_branch.md R111). -/
theorem FlagsOfDifference.signed_lt_iff {a b : Halfword} {f : Flags}
    (h : FlagsOfDifference a b f) : f.n ≠ f.v ↔ a.toInt < b.toInt := by
  obtain ⟨hn, -, -, hv⟩ := h
  have ha := toInt_range a
  have hb := toInt_range b
  have hdiff := toInt_sub_cases a b
  rw [getLsbD_fifteen] at hn
  rw [hn, ne_eq, Bool.eq_iff_iff, hv, decide_eq_true_iff]
  omega

/-- `CMP`(1) compares a register with its zero-extended immediate (40_data_processing.md R84). -/
theorem exec_cmp1_flags {rd : LowReg} {imm8 : BitVec 8} {s t : State}
    (h : exec (.cmp1 rd imm8) s = .next t) :
    FlagsOfDifference (s.readLow rd) (BitVec.setWidth 16 imm8) t.flags := by
  rw [advance_flags h]
  exact flagsOfDifference_subWithFlags _ _

/-- `CMP`(2) compares two low registers (40_data_processing.md R85). -/
theorem exec_cmp2_flags {rd rs : LowReg} {s t : State} (h : exec (.cmp2 rd rs) s = .next t) :
    FlagsOfDifference (s.readLow rd) (s.readLow rs) t.flags := by
  rw [advance_flags h]
  exact flagsOfDifference_subWithFlags _ _

/-- Settles O45: the conditions are conditions on the flags, and the flags are those of the
difference. -/
theorem branchesAfterCompare : Obligations.BranchesAfterCompare := by
  intro i s t a b hexec hcompare
  have hflags : FlagsOfDifference a b t.flags := by
    rcases hcompare with ⟨rd, imm8, rfl, rfl, rfl⟩ | ⟨rd, rs, rfl, rfl, rfl⟩ |
      ⟨rd, rs, rfl, rfl, rfl⟩ | ⟨rd, rs, rfl, rfl, rfl⟩
    · exact exec_cmp1_flags hexec
    · exact exec_cmp2_flags hexec
    · exact exec_cmp3High_flags hexec
    · exact exec_cmp3Low_flags hexec
  obtain ⟨heq, hne, hcs, hcc, -, -, -, -, hhi, hls, hge, hlt, hgt, hle⟩ := conditionTable t.flags
  have hsigned := hflags.signed_lt_iff
  obtain ⟨-, hz, hc, -⟩ := hflags
  have hz' : t.flags.z = false ↔ a ≠ b := by rw [← Bool.not_eq_true, hz]
  have hc' : t.flags.c = false ↔ ¬b.toNat ≤ a.toNat := by rw [← Bool.not_eq_true, hc]
  have hsigned' : t.flags.n = t.flags.v ↔ ¬a.toInt < b.toInt := by rw [← hsigned, not_not]
  rw [heq, hne, hcs, hcc, hhi, hls, hge, hlt, hgt, hle, hsigned, hsigned', hz, hz', hc, hc']
  have hnat : a = b ↔ a.toNat = b.toNat := BitVec.toNat_inj.symm
  have hint : a = b ↔ a.toInt = b.toInt := BitVec.toInt_inj.symm
  refine ⟨Iff.rfl, Iff.rfl, Iff.rfl, ?cc, ?hi, ?ls, ?ge, Iff.rfl, ?gt, ?le⟩
  case cc | ge => omega
  case hi | ls =>
    simp only [ne_eq, hnat]
    omega
  case gt | le =>
    simp only [ne_eq, hint]
    omega

/-- `CMP`(3) of two low registers is undefined (30_encoding.md R65). -/
theorem compareHigh_of_low {rd rs : Reg} (hrd : rd.val < 8) (hrs : rs.val < 8) (s : State) :
    compareHigh rd rs s = .fault .unassignedEncoding := by
  rw [compareHigh, if_pos]
  simp [Reg.isHigh, hrd, hrs]

/-- Settles O25: both rows compare by the same operation, and a low register keeps its number. -/
theorem compareHighOfLowRegistersFaults : Obligations.CompareHighOfLowRegistersFaults :=
  fun _ _ s hrd hrs => ⟨compareHigh_of_low hrd hrs s, fun q => compareHigh_of_low q.isLt hrs s⟩

end Sys2Proof.Machine

/-! PROOFS. The loads and stores: the access, the state it leaves, and the end of the
instruction. -/

namespace Sys2Proof.Machine

/-! ### Alignment and bytes -/

theorem wordAligned_eq_true_iff (a : Halfword) : wordAligned a = true ↔ a.toNat % 4 = 0 :=
  decide_eq_true_iff

theorem wordAligned_eq_false_iff (a : Halfword) : wordAligned a = false ↔ a.toNat % 4 ≠ 0 :=
  decide_eq_false_iff_not

theorem lowByte_eq (h : Halfword) : lowByte h = h.extractLsb' 0 8 := by
  apply BitVec.eq_of_toNat_eq
  simp [lowByte, BitVec.extractLsb'_toNat]

theorem highByte_eq (h : Halfword) : highByte h = h.extractLsb' 8 8 := by
  apply BitVec.eq_of_toNat_eq
  simp [highByte, BitVec.extractLsb'_toNat]

/-! ### What an access can stop with -/

/-- The data of `LDR` faults only by `MISALIGNED_POLICY` (20_memory.md R38). -/
theorem loadData_eq_fault (s : State) (a : Halfword) (f : Fault) :
    loadData s a = .fault f ↔
      a.toNat % 4 ≠ 0 ∧ s.params.misaligned = .fault ∧ f = .unpredictableAccess := by
  rw [← wordAligned_eq_false_iff]
  unfold loadData
  cases wordAligned a
  case true => simp [loadHalfword_ne_fault]
  case false =>
    cases s.params.misaligned
    case fault => simp [eq_comm]
    case draw => simp [andThen_eq_fault, loadHalfword_ne_fault]

/-- The data of `LDR` is refused only across the edge of the I/O region, once `MISALIGNED_POLICY`
has let the access go on (93_implementation_defined.md I18, log 14). -/
theorem loadData_eq_refused (s : State) (a : Halfword) (r : Refusal) :
    loadData s a = .refused r ↔
      (a.toNat % 4 = 0 ∨ s.params.misaligned = .draw) ∧
        isMmio s.params a ≠ isMmio s.params (a + 1) ∧ r = .mmioStraddle := by
  rw [← wordAligned_eq_true_iff, ← loadHalfword_eq_refused]
  unfold loadData
  cases wordAligned a
  case true => simp
  case false => cases s.params.misaligned <;> simp [andThen_eq_refused]

/-- The store of `STR` faults only by `MISALIGNED_POLICY` (20_memory.md R38). -/
theorem storeData_eq_fault (s : State) (a v : Halfword) (f : Fault) :
    storeData s a v = .fault f ↔
      a.toNat % 4 ≠ 0 ∧ s.params.misaligned = .fault ∧ f = .unpredictableAccess := by
  rw [← wordAligned_eq_false_iff]
  unfold storeData
  cases wordAligned a
  case true => simp [storeHalfword_ne_fault]
  case false =>
    cases s.params.misaligned
    case fault => simp [eq_comm]
    case draw => simp [storeHalfword_ne_fault]

/-- The store of `STR` is refused only across the edge of the I/O region, once `MISALIGNED_POLICY`
has let the access go on (93_implementation_defined.md I18, log 14). -/
theorem storeData_eq_refused (s : State) (a v : Halfword) (r : Refusal) :
    storeData s a v = .refused r ↔
      (a.toNat % 4 = 0 ∨ s.params.misaligned = .draw) ∧
        isMmio s.params a ≠ isMmio s.params (a + 1) ∧ r = .mmioStraddle := by
  rw [← wordAligned_eq_true_iff]
  unfold storeData
  cases wordAligned a
  case true => simp [storeHalfword_eq_refused]
  case false => cases s.params.misaligned <;> simp [storeHalfword_eq_refused, nextDraw_eq]

/-! ### The access under each policy, in memory and in the I/O region -/

section Access

variable {s : State} {a : Halfword}

theorem loadHalfword_memory (hio : isMmio s.params a = false)
    (hio' : isMmio s.params (a + 1) = false) :
    loadHalfword s a = .next (s.mem.readHalfword a, s) :=
  (loadHalfword_eq_next s s a _).mpr (.inl ⟨hio, hio', rfl, rfl⟩)

theorem loadHalfword_device (hio : isMmio s.params a = true)
    (hio' : isMmio s.params (a + 1) = true) :
    loadHalfword s a = .next (Config.deviceHalfword s.draws s.deviceEvents a,
      s.nextDraw.recordEvent
        (.loadHalfword a (Config.deviceHalfword s.draws s.deviceEvents a))) :=
  (loadHalfword_eq_next s _ a _).mpr (.inr ⟨hio, hio', rfl, rfl⟩)

theorem loadData_of_aligned (ha : a.toNat % 4 = 0) : loadData s a = loadHalfword s a := by
  rw [loadData, if_pos ((wordAligned_eq_true_iff a).mpr ha)]

/-- A misaligned load draws a free value in place of what the access answers (log 6). -/
theorem loadData_of_draw (ha : a.toNat % 4 ≠ 0) (hdraw : s.params.misaligned = .draw)
    {v : Halfword} {u : State} (h : loadHalfword s a = .next (v, u)) :
    loadData s a = .next (Config.misalignedLoad u.draws a, u.nextDraw) :=
  (loadData_eq_next s _ a _).mpr
    (.inr ⟨(wordAligned_eq_false_iff a).mpr ha, hdraw, v, u, h, rfl, rfl⟩)

theorem storeHalfword_memory (hio : isMmio s.params a = false)
    (hio' : isMmio s.params (a + 1) = false) (v : Halfword) :
    storeHalfword s a v =
      .next (((s.setMem (s.mem.writeHalfword a v)).markWritten a).markWritten (a + 1)) :=
  (storeHalfword_eq_next s _ a v).mpr (.inl ⟨hio, hio', rfl⟩)

theorem storeHalfword_device (hio : isMmio s.params a = true)
    (hio' : isMmio s.params (a + 1) = true) (v : Halfword) :
    storeHalfword s a v =
      .next (((s.recordEvent (.storeHalfword a v)).markWritten a).markWritten (a + 1)) :=
  (storeHalfword_eq_next s _ a v).mpr (.inr ⟨hio, hio', rfl⟩)

theorem storeData_of_aligned (ha : a.toNat % 4 = 0) (v : Halfword) :
    storeData s a v = storeHalfword s a v := by
  rw [storeData, if_pos ((wordAligned_eq_true_iff a).mpr ha)]

/-- A misaligned store stores a free value in place of the register's (log 6). -/
theorem storeData_of_draw (ha : a.toNat % 4 ≠ 0) (hdraw : s.params.misaligned = .draw)
    (v : Halfword) :
    storeData s a v = storeHalfword s.nextDraw a (Config.misalignedStore s.draws a v) := by
  rw [storeData, if_neg (by rw [(wordAligned_eq_false_iff a).mpr ha]; exact Bool.false_ne_true),
    hdraw]

end Access

/-! ### The end of a load and of a store -/

/-- What a load from `s` that left `u` after its access ends with: the value in its destination, the
PC advanced, and what the access left of the rest (41_load_store.md R100, R101). -/
structure LoadEnd (rd : LowReg) (v : Halfword) (s u t : State) : Prop where
  value : t.readLow rd = v
  pc : t.pc = s.pc + 2
  flags : t.flags = s.flags
  regs : KeepsRegsBut rd.toReg s t
  memory : KeepsMemory s t
  halted : t.halted = s.halted
  params : t.params = s.params
  written : t.written = s.written
  events : t.deviceEvents = u.deviceEvents
  draws : t.draws = u.draws

/-- What a store from `s` that left `u` after its access ends with (41_load_store.md R102, R103). -/
structure StoreEnd (s u t : State) : Prop where
  pc : t.pc = s.pc + 2
  flags : t.flags = s.flags
  regs : KeepsRegs s t
  halted : t.halted = s.halted
  params : t.params = s.params
  mem : t.mem = u.mem
  written : t.written = u.written
  events : t.deviceEvents = u.deviceEvents
  draws : t.draws = u.draws

/-- The advance asks for the PC and the parameters only. -/
theorem State.CanAdvance.congr {s u : State} (hadv : s.CanAdvance) (hpc : u.pc = s.pc)
    (hparams : u.params = s.params) : u.CanAdvance := by
  rwa [State.CanAdvance, hpc, hparams]

theorem LoadKeeps.advance_completes {s u : State} (k : LoadKeeps s u) (hadv : s.CanAdvance)
    (rd : LowReg) (v : Halfword) :
    ∃ t, advance (u.writeLow rd v) = .next t ∧ LoadEnd rd v s u t := by
  obtain ⟨hregs, hmem, hhalted, hparams, hevents, hwritten, hdraws⟩ :=
    frame_writeReg_endAt u rd.toReg v u.flags (u.pc + 2)
  refine ⟨_, advance_writeLow (hadv.congr k.pc k.params) rd v, ?_⟩
  exact
    { value := readLow_writeLow_endAt u rd v _ _
      pc := by rw [State.endAt_pc, k.pc]
      flags := by rw [State.endAt_flags, k.flags]
      regs := fun r hrd hr => (hregs r hrd hr).trans (readReg_congr s u r hr k.regs)
      memory := fun b => (hmem b).trans (by rw [k.mem])
      halted := hhalted.trans k.halted
      params := hparams.trans k.params
      written := hwritten.trans k.written
      events := hevents
      draws := hdraws }

theorem StoreKeeps.advance_completes {s u : State} (k : StoreKeeps s u) (hadv : s.CanAdvance) :
    ∃ t, advance u = .next t ∧ StoreEnd s u t := by
  obtain ⟨hregs, -, -⟩ := frame_setPc u (u.pc + 2)
  refine ⟨_, advance_of_canAdvance (hadv.congr k.pc k.params), ?_⟩
  exact
    { pc := by rw [State.setPc_pc, k.pc]
      flags := k.flags
      regs := fun r hr => (hregs r hr).trans (readReg_congr s u r hr k.regs)
      halted := k.halted
      params := k.params
      mem := rfl
      written := rfl
      events := rfl
      draws := rfl }

/-! ### The four instructions, from their address on -/

section Exec

variable {s : State} {rd rb : LowReg} {imm5 : BitVec 5} {a : Halfword}

theorem exec_ldr_of_address (haddr : effectiveAddress s rb (halfwordOffset imm5) = .next a) :
    exec (.ldr rd rb imm5) s =
      andThen (loadData s a) fun p => advance (p.2.writeLow rd p.1) := by
  change andThen (effectiveAddress s rb (halfwordOffset imm5)) _ = _
  rw [haddr, andThen_next]

theorem exec_str_of_address (haddr : effectiveAddress s rb (halfwordOffset imm5) = .next a) :
    exec (.str rd rb imm5) s = andThen (storeData s a (s.readLow rd)) fun u => advance u := by
  change andThen (effectiveAddress s rb (halfwordOffset imm5)) _ = _
  rw [haddr, andThen_next]

theorem exec_ldrb_of_address (haddr : effectiveAddress s rb (byteOffset imm5) = .next a) :
    exec (.ldrb rd rb imm5) s =
      advance ((loadByte s a).2.writeLow rd ((loadByte s a).1.setWidth 16)) := by
  change andThen (effectiveAddress s rb (byteOffset imm5)) _ = _
  rw [haddr, andThen_next]

theorem exec_strb_of_address (haddr : effectiveAddress s rb (byteOffset imm5) = .next a) :
    exec (.strb rd rb imm5) s = advance (storeByte s a (lowByte (s.readLow rd))) := by
  change andThen (effectiveAddress s rb (byteOffset imm5)) _ = _
  rw [haddr, andThen_next]

theorem exec_ldr_completes (hadv : s.CanAdvance)
    (haddr : effectiveAddress s rb (halfwordOffset imm5) = .next a) {v : Halfword} {u : State}
    (hload : loadData s a = .next (v, u)) :
    ∃ t, exec (.ldr rd rb imm5) s = .next t ∧ LoadEnd rd v s u t := by
  rw [exec_ldr_of_address haddr, hload, andThen_next]
  exact (loadData_keeps s u a v hload).advance_completes hadv rd v

theorem exec_str_completes (hadv : s.CanAdvance)
    (haddr : effectiveAddress s rb (halfwordOffset imm5) = .next a) {u : State}
    (hstore : storeData s a (s.readLow rd) = .next u) :
    ∃ t, exec (.str rd rb imm5) s = .next t ∧ StoreEnd s u t := by
  rw [exec_str_of_address haddr, hstore, andThen_next]
  exact (storeData_keeps s u a _ hstore).advance_completes hadv

theorem exec_ldrb_completes (hadv : s.CanAdvance)
    (haddr : effectiveAddress s rb (byteOffset imm5) = .next a) :
    ∃ t, exec (.ldrb rd rb imm5) s = .next t ∧
      LoadEnd rd ((loadByte s a).1.setWidth 16) s (loadByte s a).2 t := by
  rw [exec_ldrb_of_address haddr]
  exact (loadByte_keeps s a).advance_completes hadv rd _

theorem exec_strb_completes (hadv : s.CanAdvance)
    (haddr : effectiveAddress s rb (byteOffset imm5) = .next a) :
    ∃ t, exec (.strb rd rb imm5) s = .next t ∧
      StoreEnd s (storeByte s a (lowByte (s.readLow rd))) t := by
  rw [exec_strb_of_address haddr]
  exact (storeByte_keeps s a _).advance_completes hadv

/-- The address of a byte access is the base plus the offset (41_load_store.md R104). -/
theorem byteAddress_eq (haddr : effectiveAddress s rb (byteOffset imm5) = .next a) :
    a = s.readLow rb + BitVec.ofNat 16 imm5.toNat := by
  obtain ⟨-, rfl⟩ := (effectiveAddress_eq_next s rb _ a).mp haddr
  rw [← byteOffset_toNat imm5, BitVec.ofNat_toNat, BitVec.setWidth_eq]

end Exec

/-! ### Memory after a store -/

section Stored

variable {s u t : State} {a v : Halfword}

theorem StoreEnd.keepsMemory (e : StoreEnd s u t) (h : u.mem = s.mem) : KeepsMemory s t :=
  fun b => by rw [e.mem, h]

theorem StoreEnd.read_low (e : StoreEnd s u t) (h : u.mem = s.mem.writeHalfword a v) :
    t.mem.read a.toNat = v.extractLsb' 0 8 := by
  rw [e.mem, h, Memory.read_writeHalfword_low, lowByte_eq]

theorem StoreEnd.read_high (e : StoreEnd s u t) (h : u.mem = s.mem.writeHalfword a v) :
    t.mem.read (a + 1).toNat = v.extractLsb' 8 8 := by
  rw [e.mem, h, Memory.read_writeHalfword_high, highByte_eq]

theorem StoreEnd.readHalfword (e : StoreEnd s u t) (h : u.mem = s.mem.writeHalfword a v) :
    t.mem.readHalfword a = v := by
  rw [e.mem, h, Memory.readHalfword_writeHalfword]

theorem StoreEnd.read_other (e : StoreEnd s u t) (h : u.mem = s.mem.writeHalfword a v) (b : Nat)
    (hlow : b ≠ a.toNat) (hhigh : b ≠ (a + 1).toNat) : t.mem.read b = s.mem.read b := by
  rw [e.mem, h, Memory.read_writeHalfword_other s.mem a v b hlow hhigh]

/-- A halfword store enters its two addresses in the written set (20_memory.md R42). -/
theorem StoreEnd.mem_written {r : State}
    (e : StoreEnd s ((r.markWritten a).markWritten (a + 1)) t) (hr : r.written = s.written)
    (b : Nat) : b ∈ t.written ↔ b = a.toNat ∨ b = (a + 1).toNat ∨ b ∈ s.written := by
  rw [e.written, mem_markWritten_two, hr]

end Stored

/-! ### The statements on loads -/

/-- Settles O31: an aligned access in memory reads the halfword and changes nothing. -/
theorem loadAlignedHalfword : Obligations.LoadAlignedHalfword := by
  intro rd rb imm5 s a hadv haddr ha hio hio'
  obtain ⟨t, hexec, e⟩ := exec_ldr_completes (rd := rd) hadv haddr
    ((loadData_of_aligned ha).trans (loadHalfword_memory hio hio'))
  exact ⟨t, hexec, e.value, e.pc, e.flags, e.regs, e.memory, e.halted, e.params, e.events,
    e.written, e.draws⟩

/-- Settles O32, by the two values of `MISALIGNED_POLICY`. -/
theorem loadMisalignedHalfword : Obligations.LoadMisalignedHalfword := by
  intro rd rb imm5 s a haddr ha
  refine ⟨fun hdraw hadv hio hio' => ?draw, fun hfault => ?fault⟩
  case draw =>
    obtain ⟨t, hexec, e⟩ := exec_ldr_completes (rd := rd) hadv haddr
      (loadData_of_draw ha hdraw (loadHalfword_memory hio hio'))
    exact ⟨t, hexec, e.value, e.draws, e.pc, e.flags, e.regs, e.memory, e.halted, e.params,
      e.events, e.written⟩
  case fault =>
    rw [exec_ldr_of_address haddr, (loadData_eq_fault s a _).mpr ⟨ha, hfault, rfl⟩, andThen_fault]

/-- Settles O33, by where the byte is: memory or a device. -/
theorem loadByteZeroExtends : Obligations.LoadByteZeroExtends := by
  intro rd rb imm5 s a hadv haddr
  refine ⟨byteAddress_eq haddr, ?_⟩
  obtain ⟨t, hexec, e⟩ := exec_ldrb_completes (rd := rd) hadv haddr
  refine ⟨t, (loadByte s a).1, hexec, ?value, fun hio => ?memory, fun hio => ?device, e.pc, e.flags,
    e.regs, e.memory⟩
  case value =>
    rw [e.value]
    exact BitVec.toNat_setWidth_of_le (by decide)
  case memory =>
    have hevents := e.events
    have hdraws := e.draws
    rw [loadByte_memory s a hio] at hevents hdraws ⊢
    exact ⟨rfl, e.halted, e.params, hevents, e.written, hdraws⟩
  case device =>
    have hevents := e.events
    rw [loadByte_device s a hio] at hevents ⊢
    exact ⟨hevents, e.written, e.halted, e.params⟩

/-- Settles O39: the value loaded is the value the access records. -/
theorem deviceAnswersHalfwordLoads : Obligations.DeviceAnswersHalfwordLoads := by
  intro rd rb imm5 s a hadv haddr ha hio hio'
  obtain ⟨t, hexec, e⟩ := exec_ldr_completes (rd := rd) hadv haddr
    ((loadData_of_aligned ha).trans (loadHalfword_device hio hio'))
  exact ⟨t, _, hexec, e.value, e.events, e.pc, e.flags, e.regs, e.memory, e.written, e.halted,
    e.params⟩

/-! ### The statements on stores -/

/-- Settles O34: an aligned access in memory writes the two bytes and enters their addresses. -/
theorem storeAlignedHalfword : Obligations.StoreAlignedHalfword := by
  intro rd rb imm5 s a hadv haddr ha hio hio'
  obtain ⟨t, hexec, e⟩ := exec_str_completes (rd := rd) hadv haddr
    ((storeData_of_aligned ha _).trans (storeHalfword_memory hio hio' _))
  exact ⟨t, hexec, e.read_low rfl, e.read_high rfl, e.read_other rfl, e.mem_written rfl, e.pc,
    e.flags, e.regs, e.halted, e.params, e.events, e.draws⟩

/-- Settles O35, by the two values of `MISALIGNED_POLICY`. -/
theorem storeMisalignedHalfword : Obligations.StoreMisalignedHalfword := by
  intro rd rb imm5 s a haddr ha
  refine ⟨fun hdraw hadv hio hio' => ?draw, fun hfault => ?fault⟩
  case draw =>
    obtain ⟨t, hexec, e⟩ := exec_str_completes (rd := rd) hadv haddr
      ((storeData_of_draw ha hdraw _).trans (storeHalfword_memory (s := s.nextDraw) hio hio' _))
    exact ⟨t, hexec, e.readHalfword rfl, e.draws, e.read_other rfl, e.mem_written rfl, e.pc,
      e.flags, e.regs, e.halted, e.params, e.events⟩
  case fault =>
    rw [exec_str_of_address haddr, (storeData_eq_fault s a _ _).mpr ⟨ha, hfault, rfl⟩,
      andThen_fault]

/-- A byte store enters its address in the written set (20_memory.md R42). -/
theorem mem_written_storeByte (s : State) (a : Halfword) (v : Byte) (b : Nat) :
    b ∈ (storeByte s a v).written ↔ b = a.toNat ∨ b ∈ s.written := by
  unfold storeByte
  split <;> exact mem_addAddress a.toNat b s.written

/-- A byte store leaves every other byte alone, in memory or to a device (20_memory.md R36, R39). -/
theorem read_storeByte_other (s : State) (a : Halfword) (v : Byte) {b : Nat} (h : b ≠ a.toNat) :
    (storeByte s a v).mem.read b = s.mem.read b := by
  unfold storeByte
  split
  case isTrue => rfl
  case isFalse => exact Memory.read_write_other s.mem a.toNat b v h

theorem draws_storeByte (s : State) (a : Halfword) (v : Byte) :
    (storeByte s a v).draws = s.draws := by
  unfold storeByte
  split <;> rfl

/-- Settles O36, by where the byte goes: memory or a device. -/
theorem storeByteWritesOneByte : Obligations.StoreByteWritesOneByte := by
  intro rd rb imm5 s a hadv haddr
  refine ⟨byteAddress_eq haddr, ?_⟩
  obtain ⟨t, hexec, e⟩ := exec_strb_completes (rd := rd) hadv haddr
  refine ⟨t, hexec, fun hio => ?memory, fun hio => ?device, fun b hb => ?other, fun b => ?written,
    e.pc, e.flags, e.regs, e.halted, e.params, ?draws⟩
  case memory =>
    have hevents := e.events
    rw [storeByte_memory s a _ hio] at hevents
    refine ⟨?_, hevents⟩
    rw [e.mem, storeByte_memory s a _ hio, ← lowByte_eq]
    exact Memory.read_write_same s.mem a.toNat _
  case device =>
    have hevents := e.events
    rw [storeByte_device s a _ hio, lowByte_eq] at hevents
    refine ⟨e.keepsMemory ?_, hevents⟩
    rw [storeByte_device s a _ hio]
    rfl
  case other => rw [e.mem, read_storeByte_other s a _ hb]
  case written => rw [e.written, mem_written_storeByte]
  case draws => rw [e.draws, draws_storeByte]

/-- Settles O40: the device receives the register's value, and memory is not touched. -/
theorem deviceReceivesHalfwordStores : Obligations.DeviceReceivesHalfwordStores := by
  intro rd rb imm5 s a hadv haddr ha hio hio'
  obtain ⟨t, hexec, e⟩ := exec_str_completes (rd := rd) hadv haddr
    ((storeData_of_aligned ha _).trans (storeHalfword_device hio hio' _))
  exact ⟨t, hexec, e.events, e.mem_written rfl, e.pc, e.flags, e.regs, e.keepsMemory rfl, e.draws,
    e.halted, e.params⟩

/-! ### The statements on both -/

/-- Settles O41: the access is the one of an aligned address, with a free value for the data. -/
theorem misalignedDeviceAccess : Obligations.MisalignedDeviceAccess := by
  intro rd rb imm5 s a hadv haddr ha hdraw hio hio'
  constructor
  · obtain ⟨t, hexec, e⟩ := exec_ldr_completes (rd := rd) hadv haddr
      (loadData_of_draw ha hdraw (loadHalfword_device hio hio'))
    exact ⟨t, _, hexec, e.value, e.events, e.pc, e.flags, e.regs, e.memory, e.written, e.halted,
      e.params⟩
  · obtain ⟨t, hexec, e⟩ := exec_str_completes (rd := rd) hadv haddr
      ((storeData_of_draw ha hdraw _).trans (storeHalfword_device (s := s.nextDraw) hio hio' _))
    exact ⟨t, hexec, e.events, e.pc, e.flags, e.regs, e.keepsMemory rfl, e.halted, e.params⟩

/-- Settles O42: neither access has an answer across the edge. -/
theorem regionEdgeIsRefused : Obligations.RegionEdgeIsRefused := by
  intro rd rb imm5 s a haddr hgoesOn hedge
  constructor
  · rw [exec_ldr_of_address haddr, (loadData_eq_refused s a _).mpr ⟨hgoesOn, hedge, rfl⟩,
      andThen_refused]
  · rw [exec_str_of_address haddr, (storeData_eq_refused s a _ _).mpr ⟨hgoesOn, hedge, rfl⟩,
      andThen_refused]

end Sys2Proof.Machine

/-! PROOFS. The byte order of halfwords, and the addresses that leave the address space. -/

namespace Sys2Proof.Machine

/-! ### A load or a store that has completed -/

/-- Only where the PC may advance does the advance answer a next state. -/
theorem canAdvance_of_advance {s t : State} (h : advance s = .next t) : s.CanAdvance := by
  obtain ⟨hpolicy, -⟩ := (advance_eq_next s t).mp h
  exact (em (s.pc = 0xFFFE)).symm.imp id hpolicy

theorem LoadKeeps.end_of_advance {s u t : State} {rd : LowReg} {v : Halfword} (k : LoadKeeps s u)
    (h : advance (u.writeLow rd v) = .next t) : LoadEnd rd v s u t := by
  have hadv : s.CanAdvance :=
    (canAdvance_of_advance h).congr (by rw [writeLow_pc, k.pc]) (by rw [writeLow_params, k.params])
  obtain ⟨t', h', e⟩ := k.advance_completes hadv rd v
  cases h.symm.trans h'
  exact e

theorem StoreKeeps.end_of_advance {s u t : State} (k : StoreKeeps s u) (h : advance u = .next t) :
    StoreEnd s u t := by
  have hadv : s.CanAdvance := (canAdvance_of_advance h).congr k.pc.symm k.params.symm
  obtain ⟨t', h', e⟩ := k.advance_completes hadv
  cases h.symm.trans h'
  exact e

section Completed

variable {s t : State} {rd rb : LowReg} {imm5 : BitVec 5}

/-- What an `LDR` that completed has done (41_load_store.md R100). -/
theorem exec_ldr_eq_next (h : exec (.ldr rd rb imm5) s = .next t) :
    ∃ v u, loadData s (s.readLow rb + halfwordOffset imm5) = .next (v, u) ∧
      LoadEnd rd v s u t := by
  obtain ⟨a, haddr, hrest⟩ := (andThen_eq_next _ _ t).mp h
  obtain ⟨-, rfl⟩ := (effectiveAddress_eq_next s rb _ a).mp haddr
  obtain ⟨⟨v, u⟩, hload, hadv⟩ := (andThen_eq_next _ _ t).mp hrest
  exact ⟨v, u, hload, (loadData_keeps s u _ v hload).end_of_advance hadv⟩

/-- What an `LDRB` that completed has done (41_load_store.md R101). -/
theorem exec_ldrb_eq_next (h : exec (.ldrb rd rb imm5) s = .next t) :
    LoadEnd rd ((loadByte s (s.readLow rb + byteOffset imm5)).1.setWidth 16) s
      (loadByte s (s.readLow rb + byteOffset imm5)).2 t := by
  obtain ⟨a, haddr, hadv⟩ := (andThen_eq_next _ _ t).mp h
  obtain ⟨-, rfl⟩ := (effectiveAddress_eq_next s rb _ a).mp haddr
  exact (loadByte_keeps s _).end_of_advance hadv

/-- What an `STR` that completed has done (41_load_store.md R102). -/
theorem exec_str_eq_next (h : exec (.str rd rb imm5) s = .next t) :
    ∃ u, storeData s (s.readLow rb + halfwordOffset imm5) (s.readLow rd) = .next u ∧
      StoreEnd s u t := by
  obtain ⟨a, haddr, hrest⟩ := (andThen_eq_next _ _ t).mp h
  obtain ⟨-, rfl⟩ := (effectiveAddress_eq_next s rb _ a).mp haddr
  obtain ⟨u, hstore, hadv⟩ := (andThen_eq_next _ _ t).mp hrest
  exact ⟨u, hstore, (storeData_keeps s u _ _ hstore).end_of_advance hadv⟩

end Completed

section ReadBack

variable {s t : State} {rd rb : LowReg} {imm5 : BitVec 5} {a : Halfword}

/-- An aligned `STR` to memory that completed wrote the register's halfword. -/
theorem exec_str_mem (h : exec (.str rd rb imm5) s = .next t)
    (haddr : s.readLow rb + halfwordOffset imm5 = a) (ha : a.toNat % 4 = 0)
    (hio : isMmio s.params a = false) (hio' : isMmio s.params (a + 1) = false) :
    t.mem = s.mem.writeHalfword a (s.readLow rd) ∧ t.params = s.params := by
  obtain ⟨u, hstore, e⟩ := exec_str_eq_next h
  rw [haddr, storeData_of_aligned ha, storeHalfword_memory hio hio'] at hstore
  cases hstore
  exact ⟨e.mem, e.params⟩

/-- An aligned `LDR` from memory that completed loaded the halfword there. -/
theorem exec_ldr_value (h : exec (.ldr rd rb imm5) s = .next t)
    (haddr : s.readLow rb + halfwordOffset imm5 = a) (ha : a.toNat % 4 = 0)
    (hio : isMmio s.params a = false) (hio' : isMmio s.params (a + 1) = false) :
    t.readLow rd = s.mem.readHalfword a := by
  obtain ⟨v, u, hload, e⟩ := exec_ldr_eq_next h
  rw [haddr, loadData_of_aligned ha, loadHalfword_memory hio hio'] at hload
  cases hload
  exact e.value

/-- An `LDRB` from memory that completed loaded the byte there, zero-extended. -/
theorem exec_ldrb_value (h : exec (.ldrb rd rb imm5) s = .next t)
    (haddr : s.readLow rb + byteOffset imm5 = a) (hio : isMmio s.params a = false) :
    t.readLow rd = (s.mem.read a.toNat).setWidth 16 := by
  have hvalue := (exec_ldrb_eq_next h).value
  rwa [haddr, loadByte_memory s a hio] at hvalue

end ReadBack

theorem setWidth_extractLsb'_low (v : Halfword) :
    (v.extractLsb' 0 8).setWidth 16 = BitVec.ofNat 16 (v.toNat % 256) := by
  apply BitVec.eq_of_toNat_eq
  simp [BitVec.extractLsb'_toNat]

theorem setWidth_extractLsb'_high (v : Halfword) :
    (v.extractLsb' 8 8).setWidth 16 = BitVec.ofNat 16 (v.toNat / 256) := by
  have hv := v.isLt
  apply BitVec.eq_of_toNat_eq
  simp [BitVec.extractLsb'_toNat, Nat.shiftRight_eq_div_pow]
  omega

/-- Settles O37: the store leaves the halfword in memory with its low byte at the address, each load
reads from that memory, and a fetch joins its two bytes in the same order. -/
theorem halfwordsAreLittleEndian : Obligations.HalfwordsAreLittleEndian := by
  refine ⟨fun rd rx rb s t a hstr haddr ha hio hio' => ?data, fun s w hfetch => ?fetch⟩
  case data =>
    obtain ⟨hmem, hparams⟩ := exec_str_mem hstr ((BitVec.add_zero _).trans haddr.symm) ha hio hio'
    have hbase : t.readLow rb = a := (exec_str_readLow hstr rb).trans haddr.symm
    have hlow : t.mem.read a.toNat = (s.readLow rd).extractLsb' 0 8 := by
      rw [hmem, Memory.read_writeHalfword_low, lowByte_eq]
    have hhigh : t.mem.read (a + 1).toNat = (s.readLow rd).extractLsb' 8 8 := by
      rw [hmem, Memory.read_writeHalfword_high, highByte_eq]
    have haddr0 : t.readLow rb + byteOffset 0 = a := (BitVec.add_zero _).trans hbase
    have haddr1 : t.readLow rb + byteOffset 1 = a + 1 := congrArg (· + 1) hbase
    have haddrWord : t.readLow rb + halfwordOffset 0 = a := (BitVec.add_zero _).trans hbase
    rw [← hparams] at hio hio'
    refine ⟨hlow, hhigh, fun u h => ?_, fun u h => ?_, fun u h => ?_⟩
    · rw [exec_ldrb_value h haddr0 hio, hlow, setWidth_extractLsb'_low]
    · rw [exec_ldrb_value h haddr1 hio', hhigh, setWidth_extractLsb'_high]
    · rw [exec_ldr_value h haddrWord ha hio hio', hmem, Memory.readHalfword_writeHalfword]
  case fetch =>
    obtain ⟨-, -, -, rfl⟩ := (fetch_eq_next s w).mp hfetch
    rw [← lowByte_eq, ← highByte_eq]
    exact ⟨lowByte_joinBytes _ _, highByte_joinBytes _ _⟩

/-! ### Addresses outside 0..65535 -/

/-- Under `WRAP_POLICY = fault` a sum above 65535 is no address (20_memory.md R31). -/
theorem effectiveAddress_of_overflow {s : State} {rb : LowReg} {offset : Halfword}
    (hfault : s.params.wrap = .fault) (hover : 65535 < (s.readLow rb).toNat + offset.toNat) :
    effectiveAddress s rb offset = .fault .addressWrap :=
  (wrapAddress_eq_fault _ _ _).mpr ⟨hfault, .inr (by omega), rfl⟩

/-- Settles O38: each of these instructions computes its address before anything else. -/
theorem addressOverflowFaults : Obligations.AddressOverflowFaults := by
  intro s rd rb imm5 imm8 c hfault
  refine ⟨fun hover => ?halfword, fun hover => ?byte, fun hover => ?add2,
    fun htaken hout => ?branch⟩
  case halfword =>
    rw [← halfwordOffset_toNat] at hover
    have haddr := effectiveAddress_of_overflow hfault hover
    exact ⟨(andThen_eq_fault _ _ _).mpr (.inl haddr), (andThen_eq_fault _ _ _).mpr (.inl haddr)⟩
  case byte =>
    rw [← byteOffset_toNat] at hover
    have haddr := effectiveAddress_of_overflow hfault hover
    exact ⟨(andThen_eq_fault _ _ _).mpr (.inl haddr), (andThen_eq_fault _ _ _).mpr (.inl haddr)⟩
  case add2 =>
    rw [← pcOffset_toNat] at hover
    exact (andThen_eq_fault _ _ _).mpr
      (.inl ((wrapAddress_eq_fault _ _ _).mpr ⟨hfault, .inr (by omega), rfl⟩))
  case branch =>
    rw [← branchOffset_toInt] at hout
    rw [exec_branchOf, branchIf, if_pos htaken]
    exact (andThen_eq_fault _ _ _).mpr
      (.inl ((wrapAddress_eq_fault _ _ _).mpr ⟨hfault, hout, rfl⟩))

end Sys2Proof.Machine

/-! PROOFS. Every instruction is an effect and then a completion: here the two are tied to
`exec`. -/

namespace Sys2Proof.Machine

/-! ### Effect and completion -/

/-- The effect of an instruction that writes a register and sets N and Z from what it wrote. -/
def writeRegNZ (r : Reg) (v : Halfword) (s : State) : State :=
  (s.writeReg r v).setFlags (s.flags.setNZ v)

/-- The effect of `CMP`(3) (40_data_processing.md R86). -/
def compareHighEffect (rd rs : Reg) (s : State) : Result State :=
  if !rd.isHigh && !rs.isHigh then .fault .unassignedEncoding
  else .next (s.setFlags (subWithFlags (s.readReg rd) (s.readReg rs)).flags)

/-- The effect of a branch: the PC moves if the branch is taken (42_branch.md R110). -/
def branchEffect (c : Cond) (offset8 : BitVec 8) (s : State) : Result State :=
  if conditionPassed c s.flags then
    andThen (wrapAddress s.params (s.pc.toNat + (branchOffset offset8).toInt)) fun target =>
      .next (s.setPc target)
  else .next s

/-- What an instruction does before the PC advances; `exec_eq` ties it to `exec`. -/
def effect (i : Instr) (s : State) : Result State :=
  match i with
  | .halt => .next (s.setHalted true)
  | .mov1 rd imm8 => .next (writeRegNZ rd.toReg (immediate8 imm8) s)
  | .cmp1 rd imm8 => .next (s.setFlags (subWithFlags (s.readLow rd) (immediate8 imm8)).flags)
  | .and rd rs => .next (writeRegNZ rd.toReg (s.readLow rd &&& s.readLow rs) s)
  | .eor rd rs => .next (writeRegNZ rd.toReg (s.readLow rd ^^^ s.readLow rs) s)
  | .asr rd rs =>
    let n := shiftAmount (s.readLow rs)
    let v := s.readLow rd
    .next ((s.writeLow rd (asrResult v n)).setFlags
      (Flags.setNZ { s.flags with c := asrCarry s.flags.c v n } (asrResult v n)))
  | .tst rd rs => .next (s.setFlags (s.flags.setNZ (s.readLow rd &&& s.readLow rs)))
  | .neg rd rs =>
    let o := subWithFlags 0 (s.readLow rs)
    .next ((s.writeLow rd o.result).setFlags o.flags)
  | .cmp2 rd rs => .next (s.setFlags (subWithFlags (s.readLow rd) (s.readLow rs)).flags)
  | .add1 rd rs =>
    let o := addWithFlags (s.readReg rd) (s.readReg rs)
    .next ((s.writeReg rd o.result).setFlags o.flags)
  | .cmp3High rd rs => compareHighEffect rd rs s
  | .cmp3Low rd rs => compareHighEffect rd.toReg rs s
  | .mov2 rd rs => .next (writeRegNZ rd (s.readReg rs) s)
  | .str rd rb imm5 =>
    andThen (effectiveAddress s rb (halfwordOffset imm5)) fun a => storeData s a (s.readLow rd)
  | .ldr rd rb imm5 =>
    andThen (effectiveAddress s rb (halfwordOffset imm5)) fun a =>
      andThen (loadData s a) fun p => .next (p.2.writeLow rd p.1)
  | .strb rd rb imm5 =>
    andThen (effectiveAddress s rb (byteOffset imm5)) fun a =>
      .next (storeByte s a (lowByte (s.readLow rd)))
  | .ldrb rd rb imm5 =>
    andThen (effectiveAddress s rb (byteOffset imm5)) fun a =>
      .next ((loadByte s a).2.writeLow rd ((loadByte s a).1.setWidth 16))
  | .add2 rd imm8 =>
    andThen (wrapAddress s.params ((s.pc &&& 0xFFFC).toNat + (pcOffset imm8).toNat)) fun result =>
      .next (s.writeLow rd result)
  | .beq o => branchEffect .eq o s
  | .bne o => branchEffect .ne o s
  | .bcs o => branchEffect .cs o s
  | .bcc o => branchEffect .cc o s
  | .bmi o => branchEffect .mi o s
  | .bpl o => branchEffect .pl o s
  | .bvs o => branchEffect .vs o s
  | .bvc o => branchEffect .vc o s
  | .bhi o => branchEffect .hi o s
  | .bls o => branchEffect .ls o s
  | .bge o => branchEffect .ge o s
  | .blt o => branchEffect .lt o s
  | .bgt o => branchEffect .gt o s
  | .ble o => branchEffect .le o s

/-- The end of an instruction executed in `s` whose effect left `u`: the PC advances, unless the
instruction is `HALT` or writes the PC itself (10_state.md R15, R16). -/
def completion (i : Instr) (s u : State) : Result State :=
  if i = .halt ∨ writesPC i s = true then .next u else advance u

theorem completion_of_writesPC {i : Instr} {s : State} (h : i = .halt ∨ writesPC i s = true)
    (u : State) : completion i s u = .next u := if_pos h

theorem completion_of_not_writesPC {i : Instr} {s : State} (hi : i ≠ .halt)
    (h : writesPC i s = false) (u : State) : completion i s u = advance u :=
  if_neg (by simp [hi, h])

theorem andThen_assoc {α β γ : Type} (o : Result α) (f : α → Result β) (g : β → Result γ) :
    andThen (andThen o f) g = andThen o fun a => andThen (f a) g := by
  cases o <;> rfl

theorem andThen_congr {α β : Type} (o : Result α) {f g : α → Result β} (h : ∀ a, f a = g a) :
    andThen o f = andThen o g :=
  congrArg (andThen o) (funext h)

theorem compareHigh_eq (rd rs : Reg) (s : State) :
    compareHigh rd rs s = andThen (compareHighEffect rd rs s) advance := by
  unfold compareHigh compareHighEffect
  split <;> rfl

theorem branchIf_eq {c : Cond} {offset8 : BitVec 8} {s : State} {i : Instr} (hi : i ≠ .halt)
    (hw : writesPC i s = conditionPassed c s.flags) :
    branchIf c offset8 s = andThen (branchEffect c offset8 s) (completion i s) := by
  unfold branchIf branchEffect
  cases hc : conditionPassed c s.flags
  case false => exact (completion_of_not_writesPC hi (hw.trans hc) s).symm
  case true =>
    rw [if_pos rfl, if_pos rfl, andThen_assoc]
    exact andThen_congr _ fun a => (completion_of_writesPC (.inr (hw.trans hc)) _).symm

theorem advanceUnlessPC_eq_completion {i : Instr} {s : State} {d : Reg} (hi : i ≠ .halt)
    (hw : writesPC i s = decide (d = regPC)) (u : State) :
    advanceUnlessPC d u = completion i s u := by
  simp [advanceUnlessPC, completion, hi, hw]

/-- An instruction is its effect, then its completion. -/
theorem exec_eq (i : Instr) (s : State) : exec i s = andThen (effect i s) (completion i s) := by
  cases i
  case halt => rfl
  case add1 | mov2 => exact advanceUnlessPC_eq_completion (by simp) rfl _
  case cmp3High | cmp3Low => exact compareHigh_eq _ _ s
  case str | ldr | strb | ldrb | add2 => simp only [effect, andThen_assoc]; rfl
  case beq | bne | bcs | bcc | bmi | bpl | bvs | bvc | bhi | bls | bge | blt | bgt | ble =>
    exact branchIf_eq (by simp) rfl
  all_goals rfl

theorem exec_eq_next {i : Instr} {s t : State} (h : exec i s = .next t) :
    ∃ u, effect i s = .next u ∧ completion i s u = .next t := by
  rw [exec_eq] at h
  exact (andThen_eq_next _ _ t).mp h

end Sys2Proof.Machine

/-! PROOFS. What every effect keeps, and with it the rules of the whole machine: its memory, its
flags, its high registers and its PC. -/

namespace Sys2Proof.Machine

/-! ### Byte stores -/

/-- Memory and the written set go from `m`, `w` to `m'`, `w'` by bytes stored and by addresses
marked: no byte changes without its address entering the set (20_memory.md R42). -/
inductive Stored (m : Memory) (w : List Nat) : Memory → List Nat → Prop where
  | none : Stored m w m w
  | byte {m' : Memory} {w' : List Nat} (h : Stored m w m' w') (a : Halfword) (v : Byte) :
      Stored m w (m'.write a.toNat v) (addAddress a.toNat w')
  | mark {m' : Memory} {w' : List Nat} (h : Stored m w m' w') (a : Halfword) :
      Stored m w m' (addAddress a.toNat w')

namespace Stored

variable {m m' : Memory} {w w' : List Nat}

/-- A halfword store is two byte stores (20_memory.md R39). -/
theorem halfword (h : Stored m w m' w') (a v : Halfword) :
    Stored m w (m'.writeHalfword a v) (addAddress (a + 1).toNat (addAddress a.toNat w')) :=
  (h.byte a (lowByte v)).byte (a + 1) (highByte v)

theorem keeps_wf (h : Stored m w m' w') (hm : m.wf) : m'.wf := by
  induction h with
  | none => exact hm
  | byte _ a v ih => exact Memory.wf_write _ _ _ ih a.isLt
  | mark _ _ ih => exact ih

theorem keeps_writtenWf (h : Stored m w m' w') (hw : writtenWf w) : writtenWf w' := by
  induction h with
  | none => exact hw
  | byte _ a _ ih => exact writtenWf_addAddress _ _ ih a.isLt
  | mark _ a ih => exact writtenWf_addAddress _ _ ih a.isLt

theorem written_grows (h : Stored m w m' w') {a : Nat} (ha : a ∈ w) : a ∈ w' := by
  induction h with
  | none => exact ha
  | byte _ b _ ih => exact (mem_addAddress _ _ _).mpr (.inr ih)
  | mark _ b ih => exact (mem_addAddress _ _ _).mpr (.inr ih)

theorem read_of_not_written (h : Stored m w m' w') {a : Nat} (ha : a ∉ w') :
    m'.read a = m.read a := by
  induction h with
  | none => rfl
  | byte _ b v ih =>
    rw [mem_addAddress, not_or] at ha
    obtain ⟨hne, ha⟩ := ha
    rw [Memory.read_write_other _ _ _ _ hne, ih ha]
  | mark _ b ih =>
    rw [mem_addAddress, not_or] at ha
    exact ih ha.2

end Stored

/-- What `STRB` stores, to memory or to a device, it enters in the written set. -/
theorem stored_storeByte (s : State) (a : Halfword) (v : Byte) :
    Stored s.mem s.written (storeByte s a v).mem (storeByte s a v).written := by
  unfold storeByte
  split
  · exact Stored.none.mark a
  · exact Stored.none.byte a v

/-- What `STR` stores, to memory or to a device, it enters in the written set. -/
theorem stored_storeHalfword {s t : State} {a v : Halfword} (h : storeHalfword s a v = .next t) :
    Stored s.mem s.written t.mem t.written := by
  rcases (storeHalfword_eq_next s t a v).mp h with ⟨-, -, rfl⟩ | ⟨-, -, rfl⟩
  · exact Stored.none.halfword a v
  · exact (Stored.none.mark a).mark (a + 1)

theorem stored_storeData {s t : State} {a v : Halfword} (h : storeData s a v = .next t) :
    Stored s.mem s.written t.mem t.written := by
  rcases (storeData_eq_next s t a v).mp h with ⟨-, h⟩ | ⟨-, -, h⟩
  · exact stored_storeHalfword h
  · exact stored_storeHalfword (s := s.nextDraw) h

/-! ### The frame of an effect -/

/-- The flags `f` differ from those of `s` only where the flag table marks the instruction
(10_state.md R23). -/
def FlagsKept (i : Instr) (s : State) (f : Flags) : Prop :=
  ((flagsWritten i s).n = false → f.n = s.flags.n) ∧
  ((flagsWritten i s).z = false → f.z = s.flags.z) ∧
  ((flagsWritten i s).c = false → f.c = s.flags.c) ∧
  ((flagsWritten i s).v = false → f.v = s.flags.v)

theorem FlagsKept.refl (i : Instr) (s : State) : FlagsKept i s s.flags :=
  ⟨fun _ => rfl, fun _ => rfl, fun _ => rfl, fun _ => rfl⟩

/-- An instruction marked for all four flags may leave any. -/
theorem FlagsKept.of_all {i : Instr} {s : State} {f : Flags}
    (h : flagsWritten i s = { n := true, z := true, c := true, v := true }) : FlagsKept i s f := by
  simp [FlagsKept, h]

/-- `SetNZ` leaves C and V to the flags it starts from (40_data_processing.md R77). -/
theorem FlagsKept.setNZ {i : Instr} {s : State} {old : Flags} (v : Halfword)
    (hn : (flagsWritten i s).n = true) (hz : (flagsWritten i s).z = true)
    (hc : (flagsWritten i s).c = false → old.c = s.flags.c) (hv : old.v = s.flags.v) :
    FlagsKept i s (old.setNZ v) :=
  ⟨by simp [hn], by simp [hz], hc, fun _ => hv⟩

/-- The instruction is one of the two that write a high register, with that register as destination
(10_state.md R12). -/
def WritesHigh (i : Instr) (r : Reg) : Prop := (∃ rs, i = .add1 r rs) ∨ ∃ rs, i = .mov2 r rs

/-- What the effect of an instruction in `s` keeps in the state `u` it leaves. -/
structure EffectFrame (i : Instr) (s u : State) : Prop where
  params : u.params = s.params
  events : s.deviceEvents <+: u.deviceEvents
  stored : Stored s.mem s.written u.mem u.written
  halted : i ≠ .halt → u.halted = s.halted
  pc : writesPC i s = false → u.pc = s.pc
  high : ∀ r : Reg, 8 ≤ r.val → r ≠ regPC → ¬WritesHigh i r → u.readReg r = s.readReg r
  flags : FlagsKept i s u.flags

section Frame

variable {i : Instr} {s u : State}

theorem toReg_ne_of_high {rd : LowReg} {r : Reg} (hr : 8 ≤ r.val) : r ≠ rd.toReg := by
  intro h
  have hval : r.val = rd.val := congrArg Fin.val h
  omega

theorem effectFrame_halt (s : State) : EffectFrame .halt s (s.setHalted true) where
  params := rfl
  events := List.prefix_rfl
  stored := .none
  halted := fun h => absurd rfl h
  pc := fun _ => rfl
  high := fun _ _ _ _ => rfl
  flags := .refl _ s

theorem effectFrame_setFlags {f : Flags} (hf : FlagsKept i s f) :
    EffectFrame i s (s.setFlags f) where
  params := rfl
  events := List.prefix_rfl
  stored := .none
  halted := fun _ => rfl
  pc := fun _ => rfl
  high := fun _ _ _ _ => rfl
  flags := hf

theorem effectFrame_writeReg {rd : Reg} (v : Halfword) {f : Flags}
    (hpc : rd = regPC → writesPC i s = true) (hrd : 8 ≤ rd.val → WritesHigh i rd)
    (hf : FlagsKept i s f) : EffectFrame i s ((s.writeReg rd v).setFlags f) where
  params := writeReg_params s rd v
  events := by
    rw [State.setFlags_deviceEvents, writeReg_deviceEvents]
  stored := by
    rw [State.setFlags_mem, State.setFlags_written, writeReg_mem, writeReg_written]
    exact .none
  halted := fun _ => writeReg_halted s rd v
  pc := fun hw => writeReg_pc s rd v fun h => by simp [hpc h] at hw
  high := fun r hr _ hnot => by
    refine readReg_writeReg_other s rd r v fun h => hnot ?_
    subst h
    exact hrd hr
  flags := hf

theorem effectFrame_writeLow (rd : LowReg) (v : Halfword) {f : Flags} (hf : FlagsKept i s f) :
    EffectFrame i s ((s.writeLow rd v).setFlags f) :=
  effectFrame_writeReg v (fun h => absurd h (toReg_ne_regPC rd))
    (fun h => absurd rfl (toReg_ne_of_high (rd := rd) h)) hf

theorem LoadKeeps.refl (s : State) : LoadKeeps s s :=
  ⟨rfl, rfl, rfl, rfl, rfl, rfl, rfl, List.prefix_rfl⟩

theorem LoadKeeps.effectFrame (k : LoadKeeps s u) (rd : LowReg) (v : Halfword) :
    EffectFrame i s (u.writeLow rd v) where
  params := (writeLow_params u rd v).trans k.params
  events := by
    rw [writeLow_deviceEvents]
    exact k.events
  stored := by
    rw [writeLow_mem, writeLow_written, k.mem, k.written]
    exact .none
  halted := fun _ => (writeLow_halted u rd v).trans k.halted
  pc := fun _ => (writeLow_pc u rd v).trans k.pc
  high := fun r hr hne _ =>
    (readReg_writeReg_other u rd.toReg r v (toReg_ne_of_high hr)).trans
      (readReg_congr s u r hne k.regs)
  flags := by
    rw [writeLow_flags, k.flags]
    exact .refl i s

theorem StoreKeeps.effectFrame (k : StoreKeeps s u) (h : Stored s.mem s.written u.mem u.written) :
    EffectFrame i s u where
  params := k.params
  events := k.events
  stored := h
  halted := fun _ => k.halted
  pc := fun _ => k.pc
  high := fun r _ hne _ => readReg_congr s u r hne k.regs
  flags := by
    rw [k.flags]
    exact .refl i s

theorem effectFrame_compareHigh {rd rs : Reg}
    (hi : flagsWritten i s = { n := true, z := true, c := true, v := true })
    (h : compareHighEffect rd rs s = .next u) : EffectFrame i s u := by
  unfold compareHighEffect at h
  split at h
  case isTrue => cases h
  case isFalse =>
    cases h
    exact effectFrame_setFlags (.of_all hi)

/-- Everything the effect of a branch can answer as a next state (42_branch.md R110). -/
theorem branchEffect_eq_next {c : Cond} {offset8 : BitVec 8}
    (h : branchEffect c offset8 s = .next u) :
    (conditionPassed c s.flags = true ∧
      u = s.setPc (s.pc + BitVec.ofInt 16 (2 * offset8.toInt))) ∨
    (conditionPassed c s.flags = false ∧ u = s) := by
  unfold branchEffect at h
  split at h
  case isTrue htaken =>
    obtain ⟨target, haddr, htarget⟩ := (andThen_eq_next _ _ u).mp h
    obtain ⟨-, rfl⟩ := (wrapAddress_eq_next _ _ target).mp haddr
    cases htarget
    rw [ofInt_toNat_add_branchOffset]
    exact .inl ⟨htaken, rfl⟩
  case isFalse hnot =>
    cases h
    exact .inr ⟨Bool.eq_false_iff.mpr hnot, rfl⟩

theorem effectFrame_branch {c : Cond} {offset8 : BitVec 8}
    (hw : writesPC i s = conditionPassed c s.flags) (h : branchEffect c offset8 s = .next u) :
    EffectFrame i s u := by
  rcases branchEffect_eq_next h with ⟨htaken, rfl⟩ | ⟨-, rfl⟩
  · exact
      { params := rfl
        events := List.prefix_rfl
        stored := .none
        halted := fun _ => rfl
        pc := fun hnot => by simp [hw, htaken] at hnot
        high := fun r _ hne _ => readReg_setPc_of_ne s _ r hne
        flags := .refl i s }
  · exact effectFrame_setFlags (.refl i u)

end Frame

/-- What every effect keeps, by the kinds of instructions. -/
theorem effect_frame {i : Instr} {s u : State} (h : effect i s = .next u) : EffectFrame i s u := by
  cases i
  case halt =>
    cases h
    exact effectFrame_halt s
  case mov1 | and | eor =>
    cases h
    exact effectFrame_writeLow _ _ (.setNZ _ rfl rfl (fun _ => rfl) rfl)
  case asr rd rs =>
    cases h
    refine effectFrame_writeLow _ _ (.setNZ _ rfl rfl (fun hc => ?_) rfl)
    have hzero : shiftAmount (s.readLow rs) = 0 := by
      rw [shiftAmount_eq]
      simpa [flagsWritten] using hc
    rw [hzero, asrCarry_zero]
  case neg =>
    cases h
    exact effectFrame_writeLow _ _ (.of_all rfl)
  case cmp1 | cmp2 =>
    cases h
    exact effectFrame_setFlags (.of_all rfl)
  case tst =>
    cases h
    exact effectFrame_setFlags (.setNZ _ rfl rfl (fun _ => rfl) rfl)
  case add1 rd rs =>
    cases h
    exact effectFrame_writeReg _ (fun h => decide_eq_true h) (fun _ => .inl ⟨rs, rfl⟩) (.of_all rfl)
  case mov2 rd rs =>
    cases h
    exact effectFrame_writeReg _ (fun h => decide_eq_true h) (fun _ => .inr ⟨rs, rfl⟩)
      (.setNZ _ rfl rfl (fun _ => rfl) rfl)
  case cmp3High | cmp3Low => exact effectFrame_compareHigh rfl h
  case add2 =>
    obtain ⟨v, -, hv⟩ := (andThen_eq_next _ _ u).mp h
    cases hv
    exact (LoadKeeps.refl s).effectFrame _ v
  case ldr =>
    obtain ⟨a, -, hrest⟩ := (andThen_eq_next _ _ u).mp h
    obtain ⟨⟨v, u'⟩, hload, hu⟩ := (andThen_eq_next _ _ u).mp hrest
    cases hu
    exact (loadData_keeps s u' a v hload).effectFrame _ v
  case ldrb =>
    obtain ⟨a, -, hu⟩ := (andThen_eq_next _ _ u).mp h
    cases hu
    exact (loadByte_keeps s a).effectFrame _ _
  case str =>
    obtain ⟨a, -, hstore⟩ := (andThen_eq_next _ _ u).mp h
    exact (storeData_keeps s u a _ hstore).effectFrame (stored_storeData hstore)
  case strb =>
    obtain ⟨a, -, hu⟩ := (andThen_eq_next _ _ u).mp h
    cases hu
    exact (storeByte_keeps s a _).effectFrame (stored_storeByte s a _)
  case beq | bne | bcs | bcc | bmi | bpl | bvs | bvc | bhi | bls | bge | blt | bgt | ble =>
    exact effectFrame_branch rfl h

/-! ### The completion only moves the PC -/

/-- Everything the completion can answer as a next state. -/
theorem completion_eq_next {i : Instr} {s u t : State} (h : completion i s u = .next t) :
    ∃ a, t = u.setPc a := by
  unfold completion at h
  split at h
  case isTrue =>
    cases h
    exact ⟨u.pc, rfl⟩
  case isFalse =>
    obtain ⟨-, rfl⟩ := (advance_eq_next u t).mp h
    exact ⟨u.pc + 2, rfl⟩

/-- What every completed instruction keeps: the frame of its effect, but for the PC. -/
theorem exec_frame {i : Instr} {s t : State} (h : exec i s = .next t) :
    ∃ u a, EffectFrame i s u ∧ t = u.setPc a := by
  obtain ⟨u, heffect, hcompletion⟩ := exec_eq_next h
  obtain ⟨a, rfl⟩ := completion_eq_next hcompletion
  exact ⟨u, a, effect_frame heffect, rfl⟩

/-! ### Runs -/

/-- Settles O16: a step stores bytes at halfword addresses and enters the same addresses in the
written set, which keeps both canonical forms. -/
theorem stepKeepsInvariant : Obligations.StepKeepsInvariant := by
  rintro s t ⟨hmem, hwritten⟩ hstep
  obtain ⟨w, i, -, -, -, hexec⟩ := step_eq_next hstep
  obtain ⟨u, a, frame, rfl⟩ := exec_frame hexec
  exact ⟨frame.stored.keeps_wf hmem, frame.stored.keeps_writtenWf hwritten⟩

/-- What a step keeps of everything a run speaks of. -/
structure RunKeeps (s t : State) : Prop where
  unwritten : ∀ a : Nat, a ∉ t.written → t.mem.read a = s.mem.read a
  written : ∀ a : Nat, a ∈ s.written → a ∈ t.written
  events : s.deviceEvents <+: t.deviceEvents
  params : t.params = s.params

theorem RunKeeps.refl (s : State) : RunKeeps s s :=
  ⟨fun _ _ => rfl, fun _ h => h, List.prefix_rfl, rfl⟩

theorem RunKeeps.trans {s u t : State} (h : RunKeeps s u) (h' : RunKeeps u t) : RunKeeps s t where
  unwritten := fun a ha =>
    (h'.unwritten a ha).trans (h.unwritten a fun hu => ha (h'.written a hu))
  written := fun a ha => h'.written a (h.written a ha)
  events := h.events.trans h'.events
  params := h'.params.trans h.params

theorem step_runKeeps {s t : State} (h : step s = .next t) : RunKeeps s t := by
  obtain ⟨w, i, -, -, -, hexec⟩ := step_eq_next h
  obtain ⟨u, a, frame, rfl⟩ := exec_frame hexec
  exact ⟨fun _ ha => frame.stored.read_of_not_written ha, fun _ ha => frame.stored.written_grows ha,
    frame.events, frame.params⟩

/-- A run of `k + 1` steps is a step and a run of `k` steps. -/
theorem runsTo_succ {k : Nat} {s t : State} (h : RunsTo (k + 1) s t) :
    ∃ u, step s = .next u ∧ RunsTo k u t := by
  simp only [RunsTo, Host.Core.run] at h
  split at h
  case h_1 u hstep => exact ⟨u, hstep, h⟩
  all_goals cases h

/-- A run keeps what its steps keep. -/
theorem runKeeps_of_runsTo {k : Nat} {s t : State} (h : RunsTo k s t) : RunKeeps s t := by
  induction k generalizing s with
  | zero =>
    obtain rfl : s = t := Host.Outcome.next.inj h
    exact .refl s
  | succ k ih =>
    obtain ⟨u, hstep, hrun⟩ := runsTo_succ h
    exact (step_runKeeps hstep).trans (ih hrun)

/-- Settles O17, by induction on the number of steps. -/
theorem runKeepsUnwrittenBytes : Obligations.RunKeepsUnwrittenBytes := by
  intro k s t hrun
  have keeps := runKeeps_of_runsTo hrun
  exact ⟨keeps.unwritten, keeps.written, keeps.events, keeps.params⟩

/-- Settles O18: under the policy a fetched byte is unwritten, so it reads as at launch. -/
theorem runExecutesLaunchImage : Obligations.RunExecutesLaunchImage := by
  intro l k t w hsmc hrun hfetch
  have keeps := runKeeps_of_runsTo hrun
  obtain ⟨-, -, hunwritten, rfl⟩ := (fetch_eq_next t w).mp hfetch
  have hpolicy : t.params.smc = .fault := (congrArg Params.smc keeps.params).trans hsmc
  obtain ⟨hlow, hhigh⟩ := (fetchesWritten_eq_false_iff t).mp (hunwritten hpolicy)
  rw [readHalfword_eq, keeps.unwritten _ hlow, keeps.unwritten _ hhigh, State.launch_mem]

/-! ### Halting, flags and high registers -/

/-- Settles O47: only the effect of `HALT` changes the halted bit. -/
theorem onlyHaltHalts : Obligations.OnlyHaltHalts := by
  intro s t hstep hhalted
  obtain ⟨w, i, hrun, hfetch, hdecode, hexec⟩ := step_eq_next hstep
  obtain ⟨u, a, frame, rfl⟩ := exec_frame hexec
  have hi : i = .halt := by
    by_contra hne
    have hsame : u.halted = s.halted := frame.halted hne
    rw [State.setPc_halted, hsame, hrun] at hhalted
    cases hhalted
  exact ⟨w, hfetch, hi ▸ hdecode⟩

/-- Settles O53: the completion does not touch the flags. -/
theorem flagTable : Obligations.FlagTable := by
  intro i s t hexec
  obtain ⟨u, a, frame, rfl⟩ := exec_frame hexec
  exact frame.flags

/-- Settles O54: the other instructions name low registers only as their destinations. -/
theorem highRegistersWrittenByFormat5Only : Obligations.HighRegistersWrittenByFormat5Only := by
  intro i s t r hr hne hexec hadd hmov
  obtain ⟨u, a, frame, rfl⟩ := exec_frame hexec
  rw [readReg_setPc_of_ne u a r hne]
  refine frame.high r hr hne ?_
  rintro (⟨rs, hi⟩ | ⟨rs, hi⟩)
  · exact hadd rs hi
  · exact hmov rs hi

/-! ### The PC -/

/-- An instruction that does not write the PC ends with the advance (10_state.md R16). -/
theorem exec_eq_next_of_not_writesPC {i : Instr} {s t : State} (h : exec i s = .next t)
    (hi : i ≠ .halt) (hw : writesPC i s = false) :
    t.pc = s.pc + 2 ∧ (s.pc = 0xFFFE → s.params.fallThrough = .wrap) := by
  obtain ⟨u, heffect, hcompletion⟩ := exec_eq_next h
  have frame := effect_frame heffect
  rw [completion_of_not_writesPC hi hw] at hcompletion
  obtain ⟨hpolicy, rfl⟩ := (advance_eq_next u t).mp hcompletion
  rw [frame.pc hw, frame.params] at hpolicy
  rw [State.setPc_pc, frame.pc hw]
  exact ⟨rfl, hpolicy⟩

theorem add_two_even {a : Halfword} (h : a.toNat % 2 = 0) : (a + 2).toNat % 2 = 0 := by
  rw [BitVec.toNat_add]
  change (a.toNat + 2) % 65536 % 2 = 0
  omega

/-- Twice an integer, narrowed and added, keeps an even PC even (42_branch.md, "Target
alignment"). -/
theorem add_two_mul_even {a : Halfword} (h : a.toNat % 2 = 0) (k : Int) :
    (a + BitVec.ofInt 16 (2 * k)).toNat % 2 = 0 := by
  rw [BitVec.toNat_add, BitVec.toNat_ofInt]
  omega

/-- Settles O56: the effect leaves the PC alone, and the advance adds 2. -/
theorem pcAdvancesByTwo : Obligations.PCAdvancesByTwo := by
  intro i s t hexec hi hw
  obtain ⟨hpc, -⟩ := exec_eq_next_of_not_writesPC hexec hi hw
  exact ⟨hpc, fun heven => hpc ▸ add_two_even heven⟩

/-- Settles O48: any other instruction advances, which the policy forbids at 0xFFFE. -/
theorem topOfAddressSpace : Obligations.TopOfAddressSpace := by
  intro i s t hpc hfault hexec
  by_contra hnot
  rw [not_or, Bool.not_eq_true] at hnot
  obtain ⟨hi, hw⟩ := hnot
  obtain ⟨-, hwrap⟩ := exec_eq_next_of_not_writesPC hexec hi hw
  rw [hwrap hpc] at hfault
  cases hfault

/-- An instruction with a condition is the branch of that condition (42_branch.md R111). -/
theorem eq_branchOf {i : Instr} {c : Cond} (h : branchCondition i = some c) :
    ∃ offset8, i = branchOf c offset8 := by
  cases i <;> cases h
  all_goals exact ⟨_, rfl⟩

/-- Which instructions write the PC (10_state.md R15). -/
theorem writesPC_cases {i : Instr} {s : State} (h : writesPC i s = true) :
    (∃ rs, i = .add1 regPC rs) ∨ (∃ rs, i = .mov2 regPC rs) ∨
      ∃ c, branchCondition i = some c ∧ conditionPassed c s.flags = true := by
  cases i
  case add1 rd rs => exact .inl ⟨rs, by rw [of_decide_eq_true h]⟩
  case mov2 rd rs => exact .inr (.inl ⟨rs, by rw [of_decide_eq_true h]⟩)
  case beq | bne | bcs | bcc | bmi | bpl | bvs | bvc | bhi | bls | bge | blt | bgt | ble =>
    exact .inr (.inr ⟨_, rfl, h⟩)
  all_goals cases h

/-- Settles O57: the advance and a taken branch keep an even PC even, and `HALT` keeps the PC. -/
theorem oddPCOnlyFromFormat5 : Obligations.OddPCOnlyFromFormat5 := by
  intro i s t heven hexec hodd
  by_cases hi : i = .halt
  · subst hi
    cases hexec
    exact absurd heven (by rw [State.setHalted_pc] at hodd; omega)
  cases hw : writesPC i s
  case false =>
    obtain ⟨hpc, -⟩ := exec_eq_next_of_not_writesPC hexec hi hw
    have hstill := add_two_even heven
    rw [hpc] at hodd
    omega
  case true =>
    rcases writesPC_cases hw with hadd | hmov | ⟨c, hbranch, htaken⟩
    · exact .inl hadd
    · exact .inr hmov
    · obtain ⟨offset8, rfl⟩ := eq_branchOf hbranch
      rw [exec_branchOf] at hexec
      have hstill := add_two_mul_even heven offset8.toInt
      rw [branchIf_taken_pc htaken hexec] at hodd
      omega

end Sys2Proof.Machine

/-! PROOFS. What an executing instruction can stop with, and the changes of the state that no effect
sees. -/

namespace Sys2Proof.Machine

/-! ### The stops of an effect -/

/-- The edge of the I/O region is found only where there is a region (20_memory.md R36). -/
theorem mmioRegion_ne_nil_of_edge {p : Params} {a b : Halfword} (h : isMmio p a ≠ isMmio p b) :
    p.mmioRegion ≠ [] := by
  intro hnil
  simp [isMmio, hnil] at h

theorem effectiveAddress_eq_fault {s : State} {rb : LowReg} {offset : Halfword} {f : Fault}
    (h : effectiveAddress s rb offset = .fault f) : f = .addressWrap ∧ s.params.wrap = .fault := by
  obtain ⟨hwrap, -, rfl⟩ := (wrapAddress_eq_fault _ _ f).mp h
  exact ⟨rfl, hwrap⟩

theorem effectiveAddress_ne_refused (s : State) (rb : LowReg) (offset : Halfword) (r : Refusal) :
    effectiveAddress s rb offset ≠ .refused r := wrapAddress_ne_refused _ _ r

theorem compareHighEffect_eq_fault {rd rs : Reg} {s : State} {f : Fault}
    (h : compareHighEffect rd rs s = .fault f) :
    f = .unassignedEncoding ∧ rd.isHigh = false ∧ rs.isHigh = false := by
  unfold compareHighEffect at h
  split at h
  case isTrue hlow =>
    cases h
    simpa using hlow
  case isFalse => cases h

theorem compareHighEffect_ne_refused (rd rs : Reg) (s : State) (r : Refusal) :
    compareHighEffect rd rs s ≠ .refused r := by
  unfold compareHighEffect
  split <;> simp

theorem branchEffect_eq_fault {c : Cond} {offset8 : BitVec 8} {s : State} {f : Fault}
    (h : branchEffect c offset8 s = .fault f) : f = .addressWrap ∧ s.params.wrap = .fault := by
  unfold branchEffect at h
  split at h
  case isTrue =>
    rcases (andThen_eq_fault _ _ f).mp h with haddr | ⟨a, -, ha⟩
    · obtain ⟨hwrap, -, rfl⟩ := (wrapAddress_eq_fault _ _ f).mp haddr
      exact ⟨rfl, hwrap⟩
    · cases ha
  case isFalse => cases h

theorem branchEffect_ne_refused (c : Cond) (offset8 : BitVec 8) (s : State) (r : Refusal) :
    branchEffect c offset8 s ≠ .refused r := by
  unfold branchEffect
  split <;> simp [andThen_eq_refused, wrapAddress_ne_refused]

/-- The faults an effect can end in, each under its policy; the last only for a term that no word
encodes (60_exceptions.md R134, log 18). -/
def EffectFault (i : Instr) (p : Params) (f : Fault) : Prop :=
  (f = .unpredictableAccess ∧ p.misaligned = .fault) ∨ (f = .addressWrap ∧ p.wrap = .fault) ∨
    (f = .unassignedEncoding ∧ ¬i.WellFormed)

theorem effect_fault {i : Instr} {s : State} {f : Fault} (h : effect i s = .fault f) :
    EffectFault i s.params f := by
  cases i
  case cmp3High rd rs =>
    obtain ⟨rfl, hrd, -⟩ := compareHighEffect_eq_fault h
    exact .inr (.inr ⟨rfl, Bool.eq_false_iff.mp hrd⟩)
  case cmp3Low rd rs =>
    obtain ⟨rfl, -, hrs⟩ := compareHighEffect_eq_fault h
    exact .inr (.inr ⟨rfl, Bool.eq_false_iff.mp hrs⟩)
  case add2 =>
    rcases (andThen_eq_fault _ _ f).mp h with haddr | ⟨a, -, ha⟩
    · obtain ⟨hwrap, -, rfl⟩ := (wrapAddress_eq_fault _ _ f).mp haddr
      exact .inr (.inl ⟨rfl, hwrap⟩)
    · cases ha
  case ldrb | strb =>
    rcases (andThen_eq_fault _ _ f).mp h with haddr | ⟨a, -, ha⟩
    · exact .inr (.inl (effectiveAddress_eq_fault haddr))
    · cases ha
  case ldr =>
    rcases (andThen_eq_fault _ _ f).mp h with haddr | ⟨a, -, ha⟩
    · exact .inr (.inl (effectiveAddress_eq_fault haddr))
    · rcases (andThen_eq_fault _ _ f).mp ha with hload | ⟨p, -, hp⟩
      · obtain ⟨-, hpolicy, rfl⟩ := (loadData_eq_fault s a f).mp hload
        exact .inl ⟨rfl, hpolicy⟩
      · cases hp
  case str =>
    rcases (andThen_eq_fault _ _ f).mp h with haddr | ⟨a, -, hstore⟩
    · exact .inr (.inl (effectiveAddress_eq_fault haddr))
    · obtain ⟨-, hpolicy, rfl⟩ := (storeData_eq_fault s a _ f).mp hstore
      exact .inl ⟨rfl, hpolicy⟩
  case beq | bne | bcs | bcc | bmi | bpl | bvs | bvc | bhi | bls | bge | blt | bgt | ble =>
    exact .inr (.inl (branchEffect_eq_fault h))
  all_goals cases h

/-- An effect is refused only across the edge of the I/O region
(93_implementation_defined.md I18). -/
theorem effect_refused {i : Instr} {s : State} {r : Refusal} (h : effect i s = .refused r) :
    r = .mmioStraddle ∧ s.params.mmioRegion ≠ [] := by
  cases i
  case cmp3High | cmp3Low => exact absurd h (compareHighEffect_ne_refused _ _ s r)
  case add2 => simp [effect, andThen_eq_refused, wrapAddress_ne_refused] at h
  case ldrb | strb => simp [effect, andThen_eq_refused, effectiveAddress_ne_refused] at h
  case ldr =>
    rcases (andThen_eq_refused _ _ r).mp h with haddr | ⟨a, -, ha⟩
    · exact absurd haddr (effectiveAddress_ne_refused _ _ _ r)
    · rcases (andThen_eq_refused _ _ r).mp ha with hload | ⟨p, -, hp⟩
      · obtain ⟨-, hedge, rfl⟩ := (loadData_eq_refused s a r).mp hload
        exact ⟨rfl, mmioRegion_ne_nil_of_edge hedge⟩
      · cases hp
  case str =>
    rcases (andThen_eq_refused _ _ r).mp h with haddr | ⟨a, -, hstore⟩
    · exact absurd haddr (effectiveAddress_ne_refused _ _ _ r)
    · obtain ⟨-, hedge, rfl⟩ := (storeData_eq_refused s a _ r).mp hstore
      exact ⟨rfl, mmioRegion_ne_nil_of_edge hedge⟩
  case beq | bne | bcs | bcc | bmi | bpl | bvs | bvc | bhi | bls | bge | blt | bgt | ble =>
    exact absurd h (branchEffect_ne_refused _ _ s r)
  all_goals cases h

/-- The completion only faults where the advance does (10_state.md R17). -/
theorem completion_eq_fault {i : Instr} {s u : State} {f : Fault}
    (h : completion i s u = .fault f) :
    i ≠ .halt ∧ writesPC i s = false ∧ u.pc = 0xFFFE ∧ u.params.fallThrough = .fault ∧
      f = .pcFallThrough u := by
  unfold completion at h
  split at h
  case isTrue => cases h
  case isFalse hnot =>
    rw [not_or, Bool.not_eq_true] at hnot
    obtain ⟨hi, hw⟩ := hnot
    exact ⟨hi, hw, (advance_eq_fault u f).mp h⟩

theorem completion_ne_refused (i : Instr) (s u : State) (r : Refusal) :
    completion i s u ≠ .refused r := by
  unfold completion
  split
  case isTrue => exact nofun
  case isFalse => exact advance_ne_refused u r

/-- Settles O60: the effect stops by its own policies, the completion by the fall-through only. -/
theorem executionStopsAreNamed : Obligations.ExecutionStopsAreNamed := by
  intro i s hwf
  rw [exec_eq]
  refine ⟨fun f h => ?fault, fun r h => ?refused⟩
  case fault =>
    rcases (andThen_eq_fault _ _ f).mp h with heffect | ⟨u, heffect, hcompletion⟩
    · rcases effect_fault heffect with haccess | hwrap | ⟨-, hill⟩
      · exact .inl haccess
      · exact .inr (.inl hwrap)
      · exact absurd hwf hill
    · obtain ⟨-, -, -, hpolicy, rfl⟩ := completion_eq_fault hcompletion
      rw [(effect_frame heffect).params] at hpolicy
      exact .inr (.inr ⟨u, rfl, hpolicy⟩)
  case refused =>
    rcases (andThen_eq_refused _ _ r).mp h with heffect | ⟨u, -, hcompletion⟩
    · exact effect_refused heffect
    · exact absurd hcompletion (completion_ne_refused i s u r)

/-- Settles O59: each stop has a policy or a region that these parameters do not have. -/
theorem everyInstructionCompletes : Obligations.EveryInstructionCompletes := by
  rintro i s hwf ⟨hmisaligned, hwrap, hfallThrough, hregion⟩
  obtain ⟨hfault, hrefused⟩ := executionStopsAreNamed i s hwf
  cases hexec : exec i s
  case next t => exact ⟨t, rfl⟩
  case fault f =>
    rcases hfault f hexec with ⟨-, h⟩ | ⟨-, h⟩ | ⟨c, -, h⟩
    · cases hmisaligned.symm.trans h
    · cases hwrap.symm.trans h
    · cases hfallThrough.symm.trans h
  case refused r => exact absurd hregion (hrefused r hexec).2

/-! ### Changes of the state that no effect sees -/

/-- `g` changes nothing an effect outside Format 5 reads, and commutes with everything it writes. -/
structure Unseen (g : State → State) : Prop where
  pc (s : State) : (g s).pc = s.pc
  flags (s : State) : (g s).flags = s.flags
  mem (s : State) : (g s).mem = s.mem
  written (s : State) : (g s).written = s.written
  deviceEvents (s : State) : (g s).deviceEvents = s.deviceEvents
  draws (s : State) : (g s).draws = s.draws
  wrap (s : State) : (g s).params.wrap = s.params.wrap
  misaligned (s : State) : (g s).params.misaligned = s.params.misaligned
  mmioRegion (s : State) : (g s).params.mmioRegion = s.params.mmioRegion
  readLow (s : State) (r : LowReg) : (g s).readLow r = s.readLow r
  writeLow (s : State) (r : LowReg) (v : Halfword) : (g s).writeLow r v = g (s.writeLow r v)
  setPc (s : State) (a : Halfword) : (g s).setPc a = g (s.setPc a)
  setFlags (s : State) (f : Flags) : (g s).setFlags f = g (s.setFlags f)
  setHalted (s : State) (b : Bool) : (g s).setHalted b = g (s.setHalted b)
  setMem (s : State) (m : Memory) : (g s).setMem m = g (s.setMem m)
  setWritten (s : State) (w : List Nat) : (g s).setWritten w = g (s.setWritten w)
  setEvents (s : State) (e : List DeviceEvent) : (g s).setEvents e = g (s.setEvents e)
  setDraws (s : State) (n : Nat) : (g s).setDraws n = g (s.setDraws n)

/-- `g` changes no register either, so Format 5 does not see it. -/
structure UnseenByFormat5 (g : State → State) : Prop where
  readReg (s : State) (r : Reg) : (g s).readReg r = s.readReg r
  writeReg (s : State) (r : Reg) (v : Halfword) : (g s).writeReg r v = g (s.writeReg r v)

/-- An answer with its state changed by `g`; a stop stays as it is. -/
def mapNext {α β : Type} (g : α → β) (o : Result α) : Result β := andThen o fun a => .next (g a)

@[simp] theorem mapNext_next {α β : Type} (g : α → β) (a : α) :
    mapNext g (.next a : Result α) = .next (g a) := rfl

theorem mapNext_andThen {α β γ : Type} (g : β → γ) (o : Result α) (f : α → Result β) :
    mapNext g (andThen o f) = andThen o fun a => mapNext g (f a) := andThen_assoc o f _

theorem andThen_mapNext {α β γ : Type} (g : α → β) (o : Result α) (f : β → Result γ) :
    andThen (mapNext g o) f = andThen o fun a => f (g a) := andThen_assoc o _ f

section Unseen

variable {g : State → State}

theorem Unseen.isMmio (hg : Unseen g) (s : State) (a : Halfword) :
    isMmio (g s).params a = isMmio s.params a := by
  rw [Machine.isMmio, Machine.isMmio, hg.mmioRegion]

theorem Unseen.wrapAddress (hg : Unseen g) (s : State) (e : Int) :
    wrapAddress (g s).params e = wrapAddress s.params e := by
  rw [Machine.wrapAddress, Machine.wrapAddress, hg.wrap]

theorem Unseen.effectiveAddress (hg : Unseen g) (s : State) (rb : LowReg) (offset : Halfword) :
    effectiveAddress (g s) rb offset = effectiveAddress s rb offset := by
  rw [Machine.effectiveAddress, Machine.effectiveAddress, hg.readLow, hg.wrapAddress]

theorem Unseen.markWritten (hg : Unseen g) (s : State) (a : Halfword) :
    (g s).markWritten a = g (s.markWritten a) := by
  rw [markWritten_eq, markWritten_eq, hg.written, hg.setWritten]

theorem Unseen.recordEvent (hg : Unseen g) (s : State) (e : DeviceEvent) :
    (g s).recordEvent e = g (s.recordEvent e) := by
  rw [recordEvent_eq, recordEvent_eq, hg.deviceEvents, hg.setEvents]

theorem Unseen.nextDraw (hg : Unseen g) (s : State) : (g s).nextDraw = g s.nextDraw := by
  rw [nextDraw_eq, nextDraw_eq, hg.draws, hg.setDraws]

theorem Unseen.loadByte (hg : Unseen g) (s : State) (a : Halfword) :
    loadByte (g s) a = ((loadByte s a).1, g (loadByte s a).2) := by
  unfold Machine.loadByte
  rw [hg.isMmio, hg.draws, hg.deviceEvents, hg.nextDraw, hg.recordEvent, hg.mem]
  split <;> rfl

theorem Unseen.storeByte (hg : Unseen g) (s : State) (a : Halfword) (v : Byte) :
    storeByte (g s) a v = g (storeByte s a v) := by
  unfold Machine.storeByte
  rw [hg.isMmio, hg.recordEvent, hg.markWritten, hg.mem, hg.setMem, hg.markWritten]
  split <;> rfl

theorem Unseen.loadHalfword (hg : Unseen g) (s : State) (a : Halfword) :
    loadHalfword (g s) a = mapNext (fun p => (p.1, g p.2)) (loadHalfword s a) := by
  unfold Machine.loadHalfword
  rw [hg.isMmio, hg.isMmio, hg.draws, hg.deviceEvents, hg.nextDraw, hg.recordEvent, hg.mem]
  split <;> rfl

theorem Unseen.storeHalfword (hg : Unseen g) (s : State) (a v : Halfword) :
    storeHalfword (g s) a v = mapNext g (storeHalfword s a v) := by
  unfold Machine.storeHalfword
  rw [hg.isMmio, hg.isMmio, hg.recordEvent, hg.markWritten, hg.markWritten, hg.mem, hg.setMem,
    hg.markWritten, hg.markWritten]
  split <;> rfl

theorem Unseen.loadData (hg : Unseen g) (s : State) (a : Halfword) :
    loadData (g s) a = mapNext (fun p => (p.1, g p.2)) (loadData s a) := by
  unfold Machine.loadData
  rw [hg.loadHalfword, hg.misaligned]
  cases wordAligned a
  case true => rfl
  case false =>
    cases s.params.misaligned
    case fault => rfl
    case draw => simp [andThen_mapNext, mapNext_andThen, hg.draws, hg.nextDraw]

theorem Unseen.storeData (hg : Unseen g) (s : State) (a v : Halfword) :
    storeData (g s) a v = mapNext g (storeData s a v) := by
  unfold Machine.storeData
  rw [hg.storeHalfword, hg.misaligned, hg.nextDraw, hg.draws, hg.storeHalfword]
  cases wordAligned a
  case true => rfl
  case false => cases s.params.misaligned <;> rfl

theorem Unseen.branchEffect (hg : Unseen g) (c : Cond) (offset8 : BitVec 8) (s : State) :
    branchEffect c offset8 (g s) = mapNext g (branchEffect c offset8 s) := by
  unfold Machine.branchEffect
  rw [hg.flags, hg.pc, hg.wrapAddress]
  cases conditionPassed c s.flags
  case false => rfl
  case true => simp [mapNext_andThen, hg.setPc]

theorem UnseenByFormat5.compareHighEffect (hg : Unseen g) (hall : UnseenByFormat5 g) (rd rs : Reg)
    (s : State) : compareHighEffect rd rs (g s) = mapNext g (compareHighEffect rd rs s) := by
  unfold Machine.compareHighEffect
  rw [hall.readReg, hall.readReg, hg.setFlags]
  split <;> rfl

theorem Unseen.writeRegNZ_low (hg : Unseen g) (r : LowReg) (v : Halfword) (s : State) :
    writeRegNZ r.toReg v (g s) = g (writeRegNZ r.toReg v s) := by
  change ((g s).writeLow r v).setFlags ((g s).flags.setNZ v) = _
  rw [hg.flags, hg.writeLow, hg.setFlags]
  rfl

/-- The effect of an instruction commutes with a change it does not see. -/
theorem Unseen.effect (hg : Unseen g) {i : Instr}
    (hformat : isFormat5 i = true → UnseenByFormat5 g) (s : State) :
    effect i (g s) = mapNext g (effect i s) := by
  cases i
  case halt => exact congrArg Host.Outcome.next (hg.setHalted s true)
  case mov1 | and | eor =>
    simp only [Machine.effect, hg.readLow, hg.writeRegNZ_low, mapNext_next]
  case asr | neg =>
    simp only [Machine.effect, hg.readLow, hg.flags, hg.writeLow, hg.setFlags, mapNext_next]
  case cmp1 | cmp2 | tst =>
    simp only [Machine.effect, hg.readLow, hg.flags, hg.setFlags, mapNext_next]
  case add1 =>
    have hall := hformat rfl
    simp only [Machine.effect, hall.readReg, hall.writeReg, hg.setFlags, mapNext_next]
  case mov2 =>
    have hall := hformat rfl
    simp only [Machine.effect, writeRegNZ, hall.readReg, hall.writeReg, hg.flags, hg.setFlags,
      mapNext_next]
  case cmp3High | cmp3Low => exact (hformat rfl).compareHighEffect hg _ _ s
  case add2 =>
    simp only [Machine.effect, hg.pc, hg.wrapAddress, hg.writeLow, mapNext_andThen, mapNext_next]
  case ldr =>
    simp only [Machine.effect, hg.effectiveAddress, hg.loadData, hg.writeLow, mapNext_andThen,
      andThen_mapNext, mapNext_next]
  case ldrb =>
    simp only [Machine.effect, hg.effectiveAddress, hg.loadByte, hg.writeLow, mapNext_andThen,
      mapNext_next]
  case str =>
    simp only [Machine.effect, hg.effectiveAddress, hg.readLow, hg.storeData, mapNext_andThen]
  case strb =>
    simp only [Machine.effect, hg.effectiveAddress, hg.readLow, hg.storeByte, mapNext_andThen,
      mapNext_next]
  case beq | bne | bcs | bcc | bmi | bpl | bvs | bvc | bhi | bls | bge | blt | bgt | ble =>
    exact hg.branchEffect _ _ s

theorem Unseen.writesPC (hg : Unseen g) (i : Instr) (s : State) :
    writesPC i (g s) = writesPC i s := by
  unfold Machine.writesPC
  rw [hg.flags]

theorem Unseen.completion (hg : Unseen g) (i : Instr) (s u : State) :
    completion i (g s) u = completion i s u := by
  rw [Machine.completion, Machine.completion, hg.writesPC]

/-- An instruction started from a state changed by `g` is its effect, changed by `g`, and its
completion. -/
theorem Unseen.exec (hg : Unseen g) {i : Instr}
    (hformat : isFormat5 i = true → UnseenByFormat5 g) (s : State) :
    Machine.exec i (g s) =
      andThen (Machine.effect i s) fun u => Machine.completion i s (g u) := by
  rw [exec_eq, hg.effect hformat, andThen_mapNext]
  exact andThen_congr _ fun u => hg.completion i s (g u)

end Unseen

/-- No effect ends in the fall-through fault (10_state.md R17). -/
theorem effect_ne_pcFallThrough (i : Instr) (s c : State) :
    effect i s ≠ .fault (.pcFallThrough c) := by
  intro h
  rcases effect_fault h with ⟨hf, -⟩ | ⟨hf, -⟩ | ⟨hf, -⟩ <;> cases hf

/-! ### The fall-through -/

/-- The state under `PC_FALLTHROUGH_POLICY = wrap`. -/
def wrapFallThrough (s : State) : State := s.setParams { s.params with fallThrough := .wrap }

theorem unseen_wrapFallThrough : Unseen wrapFallThrough where
  pc _ := rfl
  flags _ := rfl
  mem _ := rfl
  written _ := rfl
  deviceEvents _ := rfl
  draws _ := rfl
  wrap _ := rfl
  misaligned _ := rfl
  mmioRegion _ := rfl
  readLow _ _ := rfl
  writeLow s r v := by
    simp only [State.writeLow, State.writeReg]
    split <;> rfl
  setPc _ _ := rfl
  setFlags _ _ := rfl
  setHalted _ _ := rfl
  setMem _ _ := rfl
  setWritten _ _ := rfl
  setEvents _ _ := rfl
  setDraws _ _ := rfl

theorem unseenByFormat5_wrapFallThrough : UnseenByFormat5 wrapFallThrough where
  readReg _ _ := rfl
  writeReg s r v := by
    simp only [State.writeReg]
    split <;> rfl

theorem advance_wrapFallThrough {u : State} (hpc : u.pc = 0xFFFE) :
    advance (wrapFallThrough u) = .next ((wrapFallThrough u).setPc 0) := by
  refine (advance_eq_next _ _).mpr ⟨fun _ => rfl, ?_⟩
  change _ = (wrapFallThrough u).setPc (u.pc + 2)
  rw [hpc]
  rfl

/-- Settles O49: the effect does not see the policy, and the completion is the advance, which under
`wrap` goes from 0xFFFE to 0. -/
theorem fallThroughFaultIsComplete : Obligations.FallThroughFaultIsComplete := by
  intro i s c hexec
  rw [exec_eq] at hexec
  rcases (andThen_eq_fault _ _ _).mp hexec with heffect | ⟨u, heffect, hcompletion⟩
  · exact absurd heffect (effect_ne_pcFallThrough i s c)
  obtain ⟨hi, hw, hpc, hfault, hu⟩ := completion_eq_fault hcompletion
  obtain rfl : c = u := Fault.pcFallThrough.inj hu
  have frame := effect_frame heffect
  have hpolicy : s.params.fallThrough = .fault :=
    (congrArg Params.fallThrough frame.params).symm.trans hfault
  refine ⟨(frame.pc hw).symm.trans hpc, hpolicy, hpc, ?wrapped⟩
  case wrapped =>
    rw [← frame.params]
    calc exec i (s.setParams { c.params with fallThrough := .wrap })
      _ = exec i (wrapFallThrough s) := by rw [frame.params]; rfl
      _ = completion i s (wrapFallThrough c) := by
        rw [unseen_wrapFallThrough.exec (fun _ => unseenByFormat5_wrapFallThrough), heffect,
          andThen_next]
      _ = advance (wrapFallThrough c) := completion_of_not_writesPC hi hw _
      _ = .next ((wrapFallThrough c).setPc 0) := advance_wrapFallThrough hpc

/-! ### High registers -/

theorem writeReg_eq_setRegs {r : Reg} (hr : r.val < 15) (s : State) (v : Halfword) :
    s.writeReg r v = s.setRegs (s.regs.set r.val v) := dif_pos hr

/-- Writes of two registers commute. -/
theorem writeReg_comm {r q : Reg} (hne : r.val ≠ q.val) (hr : r.val < 15) (hq : q.val < 15)
    (s : State) (v w : Halfword) :
    (s.writeReg r v).writeReg q w = (s.writeReg q w).writeReg r v := by
  simp only [writeReg_eq_setRegs hr, writeReg_eq_setRegs hq, State.setRegs_regs]
  rw [Vector.set_comm _ _ hne]
  rfl

/-- A write of R8 to R14 is seen by Format 5 only (10_state.md R12). -/
theorem unseen_writeHigh {r : Reg} (hhigh : 8 ≤ r.val) (hne : r ≠ regPC) (v : Halfword) :
    Unseen fun s => s.writeReg r v := by
  have hr : r.val < 15 := by
    have hval : r.val ≠ 15 := fun h => hne (Fin.ext h)
    omega
  have hset := fun s => writeReg_eq_setRegs hr s v
  exact
    { pc := fun s => writeReg_pc s r v hne
      flags := fun s => writeReg_flags s r v
      mem := fun s => writeReg_mem s r v
      written := fun s => writeReg_written s r v
      deviceEvents := fun s => writeReg_deviceEvents s r v
      draws := fun s => writeReg_draws s r v
      wrap := fun s => by rw [writeReg_params]
      misaligned := fun s => by rw [writeReg_params]
      mmioRegion := fun s => by rw [writeReg_params]
      readLow := fun s q => readReg_writeReg_other s r q.toReg v (toReg_ne_of_high hhigh).symm
      writeLow := fun s q w =>
        writeReg_comm (by rw [toReg_val]; omega) hr (by rw [toReg_val]; omega) s v w
      setPc := fun s _ => by simp only [hset]; rfl
      setFlags := fun s _ => by simp only [hset]; rfl
      setHalted := fun s _ => by simp only [hset]; rfl
      setMem := fun s _ => by simp only [hset]; rfl
      setWritten := fun s _ => by simp only [hset]; rfl
      setEvents := fun s _ => by simp only [hset]; rfl
      setDraws := fun s _ => by simp only [hset]; rfl }

theorem advance_writeHigh {r : Reg} (hhigh : 8 ≤ r.val) (hne : r ≠ regPC) (v : Halfword)
    (u : State) : advance (u.writeReg r v) = mapOutcome (fun t => t.writeReg r v) (advance u) := by
  unfold advance
  rw [(unseen_writeHigh hhigh hne v).setPc, writeReg_pc u r v hne, writeReg_params]
  split <;> rfl

/-- An outcome changed after a completion is the completion of the changed state, if the change
commutes with the advance. -/
theorem completion_of_advance {g : State → State}
    (hadv : ∀ u, advance (g u) = mapOutcome g (advance u)) (i : Instr) (s u : State) :
    completion i s (g u) = mapOutcome g (completion i s u) := by
  unfold completion
  split
  case isTrue => rfl
  case isFalse => exact hadv u

/-- Settles O55: the effect does not see the register, and the advance carries it along. -/
theorem highRegistersInvisible : Obligations.HighRegistersInvisible := by
  intro i s r v hhigh hne hformat
  have hnext := completion_of_advance (advance_writeHigh hhigh hne v) i s
  rw [(unseen_writeHigh hhigh hne v).exec (by simp [hformat]), exec_eq i s]
  cases heffect : effect i s
  case next u => exact hnext u
  case refused => rfl
  case fault f =>
    cases f
    case pcFallThrough c => exact absurd heffect (effect_ne_pcFallThrough i s c)
    all_goals rfl

end Sys2Proof.Machine
